-- ==== Sys2Proof/Word.lean ====
section
/-! DEFINITION. The plain types of the values the block moves (00_scope.md R7, R8): a data byte, an alphabet index, a
command word, and the name of a port. Every value is unsigned. -/

namespace Sys2Proof

/-- `BYTE_W = 8` and `OUT_W = 8`: a data byte, a character code, an output word (R7, R47, R65). -/
abbrev Byte := BitVec 8

/-- `IDX_W = 6`: an alphabet index, one 6-bit window (R7). -/
abbrev Sextet := BitVec 6

/-- `CMD_W = 9`: a command word `cmd[8:0]` (30_encoding.md R60). -/
abbrev CmdWord := BitVec 9

/-- The two units, each with its own command port and output port (00_scope.md R2, R11; 30_encoding.md R66). -/
inductive Port where
  | enc
  | dec
  deriving DecidableEq, Repr

end Sys2Proof
end

