-- ==== Sys2Proof/Config.lean ====
section
/-! DEFINITION. What an implementation fixes (00_scope.md R7) and what the spec leaves free
(93_implementation_defined.md part 2). The fixed parameters are definitions with a value; the OPEN parameters and the free
values are uninterpreted constants, so nothing can be proved about a particular value of one. -/

namespace Sys2Proof.Config

/-- `PAD_CODE`, the code of the padding symbol `=` (R7, 40_alphabet.md R84). -/
def padCode : Byte := 0x3D

/-- `N_SYM`, the number of alphabet symbols (R7). -/
def nSym : Nat := 64

/-- How far `ENC_OUT_DEPTH` lies above its least value 3 (R7: OPEN, integer ≥ 3). DESIGN CHOICE, log entry 8. -/
opaque encSpare : Nat

/-- How far `DEC_OUT_DEPTH` lies above its least value 1 (R7: OPEN, integer ≥ 1). DESIGN CHOICE, log entry 8. -/
opaque decSpare : Nat

/-- `ENC_OUT_DEPTH`: any integer ≥ 3 (R7, 10_state.md R23). -/
def encOutDepth : Nat := encSpare + 3

/-- `DEC_OUT_DEPTH`: any integer ≥ 1 (R7, 10_state.md R26). -/
def decOutDepth : Nat := decSpare + 1

/-- The capacity of a port's output queue (R7). -/
def outDepth : Port → Nat
  | .enc => encOutDepth
  | .dec => decOutDepth

/-- The most values one command of the port can append, hence the free entries its acceptance needs
(41_encoder.md R108, 42_decoder.md R133, 30_encoding.md R69). -/
def mostOutputs : Port → Nat
  | .enc => 3
  | .dec => 1

/-- `LATENCY`: cycles between a command's acceptance and its outputs' visibility (R7: OPEN). Port level only; DESIGN CHOICE, log entry 9. -/
opaque latency : Nat

/-- `RESET_READY_DELAY`: the most cycles after reset before `cmd_ready` may be 1 (R7: OPEN). Port level only; DESIGN CHOICE, log entry 9. -/
opaque resetReadyDelay : Nat

/-- FREE VALUE: how many cycles after the reset of cycle `n` the unit keeps `cmd_ready = 0`; cut off at `RESET_READY_DELAY`
(70_reset_and_hazards.md R183 "at most"). DESIGN CHOICE, log entry 9. -/
opaque freeResetDelay : Port → Nat → Nat

/-- FREE VALUE: for how many cycles, from cycle `n` on, the unit keeps `cmd_ready = 0` for implementation reasons
(30_encoding.md R69: finite, otherwise unbounded). DESIGN CHOICE, log entry 9. -/
opaque freeStall : Port → Nat → Nat

/-- FREE VALUE: `out_data` in a cycle in which `out_valid = 0` (30_encoding.md R70). DESIGN CHOICE, log entry 10. -/
opaque freeOutData : Port → Nat → Byte

/-- FREE VALUE: the idle output in a cycle in which `rst = 1` (70_reset_and_hazards.md R182) or before the first reset
(10_state.md R31). DESIGN CHOICE, log entry 10. -/
opaque freeIdle : Port → Nat → Bool

/-- FREE VALUE: a ready or valid output before the first reset, when the state is unspecified (10_state.md R31). DESIGN CHOICE, log entry 10. -/
opaque freeSignal : Port → Nat → Bool

/-- FREE VALUES: what the registers and queues hold at power-on, before the first reset (10_state.md R31), values outside
the legal sets included. DEDUCED, log entry 5. -/
opaque powerOnEncPhase : BitVec 2
opaque powerOnEncRes : BitVec 4
opaque powerOnEncOutq : List Byte
opaque powerOnDecPhase : BitVec 2
opaque powerOnDecRes : BitVec 6
opaque powerOnDecOutq : List Byte

end Sys2Proof.Config
end

