-- ==== Sys2Proof/Machine/Alphabet.lean ====
section
/-! DEFINITION. The alphabet table (40_alphabet.md): the fixed constant both units read. -/

namespace Sys2Proof.Machine

open Sys2Proof

/-- The table of R81: the code of each of the 64 symbols, in index order (A–Z, a–z, 0–9, `+`, `/`). -/
def alphabetTable : List Byte :=
  [0x41, 0x42, 0x43, 0x44, 0x45, 0x46, 0x47, 0x48, 0x49, 0x4A, 0x4B, 0x4C, 0x4D, 0x4E, 0x4F, 0x50]
  ++ [0x51, 0x52, 0x53, 0x54, 0x55, 0x56, 0x57, 0x58, 0x59, 0x5A, 0x61, 0x62, 0x63, 0x64, 0x65, 0x66]
  ++ [0x67, 0x68, 0x69, 0x6A, 0x6B, 0x6C, 0x6D, 0x6E, 0x6F, 0x70, 0x71, 0x72, 0x73, 0x74, 0x75, 0x76]
  ++ [0x77, 0x78, 0x79, 0x7A, 0x30, 0x31, 0x32, 0x33, 0x34, 0x35, 0x36, 0x37, 0x38, 0x39, 0x2B, 0x2F]

/-- `SYMBOL_OF(i)` (R82), in the spec's arithmetic form. -/
def symbolOf (i : Sextet) : Byte :=
  if i ≤ 25 then i.setWidth 8 + 0x41
  else if i ≤ 51 then i.setWidth 8 + 0x47
  else if i ≤ 61 then i.setWidth 8 - 0x04
  else if i = 62 then 0x2B
  else 0x2F

/-- The pair `(valid, idx)` that `INDEX_OF` answers (R83). -/
structure Lookup where
  valid : Bool
  idx : Sextet
  deriving DecidableEq, Repr

/-- `INDEX_OF(c)` (R83); `valid = false` is the document's `InvalidSymbol`, which never leaves the block
(90_conflicts.md C1). The index of an invalid code is 0 (decision D8; DESIGN CHOICE, log entry 12). -/
def indexOf (c : Byte) : Lookup :=
  if 0x41 ≤ c ∧ c ≤ 0x5A then ⟨true, (c - 0x41).extractLsb' 0 6⟩
  else if 0x61 ≤ c ∧ c ≤ 0x7A then ⟨true, (c - 0x47).extractLsb' 0 6⟩
  else if 0x30 ≤ c ∧ c ≤ 0x39 then ⟨true, (c + 0x04).extractLsb' 0 6⟩
  else if c = 0x2B then ⟨true, 62⟩
  else if c = 0x2F then ⟨true, 63⟩
  else ⟨false, 0⟩

end Sys2Proof.Machine
end

