-- ==== Sys2Proof/Machine/Operands.lean ====
section
/-! DEFINITION. The operand forms: how a command's operand joins the residue, and which bit slices of the joined value are
emitted or kept (41_encoder.md R103, R104; 42_decoder.md R133). The residue came earlier in the stream, so it is the more
significant part (20_memory.md R43). `x.extractLsb' lo n` is the spec's slice `x[lo+n-1 : lo]`. -/

namespace Sys2Proof.Machine

open Sys2Proof

/-- Encoder, phase 1: `x = enc.res[1:0] ++ b`, 10 bits (R103). -/
def encJoin1 (res : BitVec 4) (b : Byte) : BitVec 10 := res.extractLsb' 0 2 ++ b

/-- Encoder, phase 2: `x = enc.res[3:0] ++ b`, 12 bits (R103). -/
def encJoin2 (res : BitVec 4) (b : Byte) : BitVec 12 := res ++ b

/-- `ENC.END`, phase 1: `enc.res[1:0] ++ 0b0000`, two data bits and four zero bits (R104). -/
def encTail1 (res : BitVec 4) : Sextet := res.extractLsb' 0 2 ++ (0 : BitVec 4)

/-- `ENC.END`, phase 2: `enc.res[3:0] ++ 0b00`, four data bits and two zero bits (R104). -/
def encTail2 (res : BitVec 4) : Sextet := res ++ (0 : BitVec 2)

/-- Decoder, phase 1: `x = dec.res[5:0] ++ v`, 12 bits (R133). -/
def decJoin1 (res : BitVec 6) (v : Sextet) : BitVec 12 := res ++ v

/-- Decoder, phase 2: `x = dec.res[3:0] ++ v`, 10 bits (R133). -/
def decJoin2 (res : BitVec 6) (v : Sextet) : BitVec 10 := res.extractLsb' 0 4 ++ v

/-- Decoder, phase 3: `x = dec.res[1:0] ++ v`, 8 bits (R133). -/
def decJoin3 (res : BitVec 6) (v : Sextet) : BitVec 8 := res.extractLsb' 0 2 ++ v

/-- `W(q)`, the residue's width in bits at decoder phase `q`: `(6 * q) mod 8` (10_state.md R25). -/
def decWidth (q : BitVec 2) : Nat := (6 * q.toNat) % 8

/-- The encoder residue's width in bits at phase `q`: `2 * q` (10_state.md R22). -/
def encWidth (q : BitVec 2) : Nat := 2 * q.toNat

end Sys2Proof.Machine
end

