-- ==== Sys2Proof/Syntax.lean ====
section
/-! DEFINITION. The commands of the block, one constructor per row of spec/opcode_table.json (30_encoding.md R64). -/

namespace Sys2Proof

/-- A command a unit can accept. An `END` carries no operand: the unit ignores its `cmd[7:0]` (30_encoding.md R62). -/
inductive Instr where
  /-- `ENC.DATA b`: one byte of the encoder's input (41_encoder.md R103). -/
  | encData (b : Byte)
  /-- `ENC.END`: close the encoder's call (41_encoder.md R104). -/
  | encEnd
  /-- `DEC.DATA c`: one character code of the decoder's input (42_decoder.md R133). -/
  | decData (c : Byte)
  /-- `DEC.END`: close the decoder's call (42_decoder.md R134). -/
  | decEnd
  deriving DecidableEq, Repr

end Sys2Proof
end

