-- ==== Sys2Proof/WellFormed.lean ====
section
/-! DEFINITION. Which command may stand on which port. Every operand value is legal (30_encoding.md R61, R63), so the one
thing a command can get wrong is its port: "Each port decodes its own commands" (R64). -/

namespace Sys2Proof

/-- The port whose opcode map holds the command (30_encoding.md R64). -/
def Instr.port : Instr → Port
  | .encData _ => .enc
  | .encEnd => .enc
  | .decData _ => .dec
  | .decEnd => .dec

/-- A command is well-formed on a port when that port's opcode map holds it (30_encoding.md R64). -/
def wellFormedOn (p : Port) (i : Instr) : Bool := decide (i.port = p)

end Sys2Proof
end

