-- ==== Sys2Proof/Decode.lean ====
section
/-! DEFINITION. Decoding and encoding of command words (30_encoding.md R60 to R64, R74). Decoding is total: all 512 words
are legal on each port (R63), so there is no reserved word to reject; a number that is no 9-bit word is rejected by
`decodeTableWord`. -/

namespace Sys2Proof

/-- The field `OP = cmd[8]`: false is `DATA`, true is `END` (R60). -/
def opField (w : CmdWord) : Bool := w.getLsbD 8

/-- The field `DATA = cmd[7:0]`, unsigned (R60, R74). -/
def dataField (w : CmdWord) : Byte := w.extractLsb' 0 8

/-- The command a word means on a port (R61 to R64). -/
def decode (p : Port) (w : CmdWord) : Instr :=
  match p with
  | .enc => if opField w then .encEnd else .encData (dataField w)
  | .dec => if opField w then .decEnd else .decData (dataField w)

/-- The word with a given `OP` and `DATA` (R60). -/
def packWord (op : BitVec 1) (data : Byte) : CmdWord := op ++ data

/-- The word of a command; an `END` is driven with `cmd[7:0] = 0x00`, as R62 recommends. -/
def encode : Instr → CmdWord
  | .encData b => packWord 0 b
  | .encEnd => packWord 1 0
  | .decData c => packWord 0 c
  | .decEnd => packWord 1 0

/-- A row of the opcode map (R64): a word `w` matches it when `w &&& mask = pattern`. -/
structure OpcodeRow where
  port : Port
  mnemonic : String
  pattern : CmdWord
  mask : CmdWord
  deriving DecidableEq, Repr

/-- The opcode map of R64 (the same four rows as spec/opcode_table.json). -/
def opcodeMap : List OpcodeRow := [
  ⟨.enc, "ENC.DATA", 0x000, 0x100⟩,
  ⟨.enc, "ENC.END", 0x100, 0x100⟩,
  ⟨.dec, "DEC.DATA", 0x000, 0x100⟩,
  ⟨.dec, "DEC.END", 0x100, 0x100⟩]

/-- R64: "A word matches a row when `(cmd & mask) = match`". -/
def OpcodeRow.matchesWord (r : OpcodeRow) (p : Port) (w : CmdWord) : Bool :=
  decide (r.port = p) && (w &&& r.mask == r.pattern)

/-- The mnemonic of a command (R64, R72). -/
def mnemonic : Instr → String
  | .encData _ => "ENC.DATA"
  | .encEnd => "ENC.END"
  | .decData _ => "DEC.DATA"
  | .decEnd => "DEC.END"

/-- A table word on a named port: bits 8..0 are the command; a number with a higher bit set is no command word. -/
def decodeTableWordOn (p : Port) (w : Nat) : Option Instr :=
  if w < 512 then some (decode p (BitVec.ofNat 9 w)) else none

/-- The host's fixed name. DESIGN CHOICE, log entry 3: the two ports share every word and a table word names no port, so
this reads it on the ENCODER port; `decodeTableWordOn .dec` reads it on the decoder port. A command has 9 bits whatever
`nbits` the table's row is counted as (R71). -/
def decodeTableWord (_nbits w : Nat) : Option Instr := decodeTableWordOn .enc w

end Sys2Proof
end

