-- ==== Sys2Proof/Machine/State.lean ====
section
/-! DEFINITION. The state of the machine as plain data: the six fields of 10_state.md R20, under the spec's own names
(`s.enc.phase`, `s.enc.res`, `s.enc.outq`, and the same for `dec`), and beside them the host agent (00_scope.md R6), which
the spec lets start every step: what it will do next and what it has observed (70_reset_and_hazards.md R192, R193). -/

namespace Sys2Proof.Machine

open Sys2Proof

/-- The encoder unit (10_state.md R20 to R23). -/
structure EncState where
  /-- bytes accepted in the call, modulo 3 (R21) -/
  phase : BitVec 2
  /-- the last `2 * phase` bits of the call's bit stream, right-aligned (R22) -/
  res : BitVec 4
  /-- codes not yet transferred to the host, first in first out (R23) -/
  outq : List Byte
  deriving DecidableEq, Repr

/-- The decoder unit (10_state.md R20, R24 to R26). -/
structure DecState where
  /-- surviving characters accepted in the call, modulo 4 (R24) -/
  phase : BitVec 2
  /-- the last `W(phase)` bits of the call's filtered bit stream, right-aligned (R25) -/
  res : BitVec 6
  /-- bytes not yet transferred to the host, first in first out (R26) -/
  outq : List Byte
  deriving DecidableEq, Repr

/-- How a call came to its end: by its `END` (00_scope.md, glossary "Call"), or abandoned by a reset (R181). -/
inductive CallClose where
  | ended
  | abandoned
  deriving DecidableEq, Repr

/-- The end of a call, as a position in the stream of values popped from the unit: the call's values lie before it. -/
structure Boundary where
  how : CallClose
  pos : Nat
  deriving DecidableEq, Repr

/-- What the host has observed of one unit (70_reset_and_hazards.md R193). The model's own field, DESIGN CHOICE, log entry 7. -/
structure Record where
  /-- every value popped, first to last -/
  popped : List Byte
  /-- where the calls end in `popped`, oldest first -/
  bounds : List Boundary
  /-- what each read of the unit's idle status gave, first to last (10_state.md R27) -/
  idleReads : List Bool
  deriving DecidableEq, Repr

/-- A transaction of the host (30_encoding.md R72; 70_reset_and_hazards.md R192). -/
inductive Move where
  /-- issue a command: a 9-bit word on a unit's command port -/
  | cmd (p : Port) (w : CmdWord)
  /-- `POP ENC` / `POP DEC`: one output transfer -/
  | pop (p : Port)
  /-- read `enc_idle` / `dec_idle` -/
  | readIdle (p : Port)
  /-- `RESET`: assert `rst` for at least one edge -/
  | reset
  deriving DecidableEq, Repr

/-- The host agent (00_scope.md R6): the transactions it performs next, in order, and its record of each unit.
The model's own field, DESIGN CHOICE, log entries 1 and 7. -/
structure HostState where
  script : List Move
  enc : Record
  dec : Record
  deriving DecidableEq, Repr

/-- The whole machine. `wasReset` says whether a first reset has happened since power-on (10_state.md R31; DEDUCED, log entry 5). -/
structure State where
  enc : EncState
  dec : DecState
  wasReset : Bool
  host : HostState
  deriving DecidableEq, Repr

/-- The block raises no exception and has no cause codes (60_exceptions.md R160: "Nothing faults"), so there is no fault:
nothing raises one, which is safe. -/
inductive Fault where
  deriving DecidableEq, Repr

/-- Why the model has no step. None is a signal of the block: "the block detects nothing and reports nothing" (R171). -/
inductive Refusal where
  /-- Raised by `exec` for a command without a meaning; no command is without one. Safe. -/
  | notModelled (mnemonic : String)
  /-- Raised by a command, a pop or an idle read before the first reset: "a model refuses every command or pop before the
  first reset" (70_reset_and_hazards.md R184, 10_state.md R31). Safe. -/
  | beforeReset
  /-- Raised by an encoder command with `enc.phase = 3`, a value no rule writes and only a unit that was never reset can
  hold; "A model gives such a state no meaning" (10_state.md R21, R31). Safe. -/
  | phaseUnspecified
  /-- Raised at the port level by a host that withdraws or changes an offered command before its transfer
  (30_encoding.md R68, 60_exceptions.md R171). Safe. -/
  | hostProtocol
  deriving DecidableEq, Repr

/-- What a step answers. -/
abbrev Outcome := Host.Outcome State Fault Refusal

/-- The encoder's reset values (10_state.md R30). -/
def EncState.reset : EncState := { phase := 0, res := 0, outq := [] }

/-- The decoder's reset values (10_state.md R30). -/
def DecState.reset : DecState := { phase := 0, res := 0, outq := [] }

/-- A host that has observed nothing yet. -/
def Record.empty : Record := { popped := [], bounds := [], idleReads := [] }

/-- The machine right after reset (10_state.md R30, 70_reset_and_hazards.md R181), with a host that has nothing to do. -/
def State.reset : State :=
  { enc := EncState.reset
    dec := DecState.reset
    wasReset := true
    host := { script := [], enc := Record.empty, dec := Record.empty } }

/-- The machine at power-on, before the first reset: every field of R20 unspecified (10_state.md R31; DEDUCED, log entry 5). -/
def State.powerOn : State :=
  { enc := { phase := Config.powerOnEncPhase, res := Config.powerOnEncRes, outq := Config.powerOnEncOutq }
    dec := { phase := Config.powerOnDecPhase, res := Config.powerOnDecRes, outq := Config.powerOnDecOutq }
    wasReset := false
    host := { script := [], enc := Record.empty, dec := Record.empty } }

end Sys2Proof.Machine
end

