-- ==== Sys2Proof/Machine/Flags.lean ====
section
/-! DEFINITION. The block has no condition flags (10_state.md R28). What stands here are the status outputs each unit
drives at the transaction level, as functions of the state: idle (R27), command acceptance (30_encoding.md R69) and output
delivery (R70). -/

namespace Sys2Proof.Machine

open Sys2Proof

/-- The output queue of a unit (10_state.md R23, R26). -/
def outq (p : Port) (s : State) : List Byte :=
  match p with
  | .enc => s.enc.outq
  | .dec => s.dec.outq

/-- `enc_idle`, `dec_idle`: 1 exactly when the unit's queue is empty; it says nothing of phase or residue (R27). -/
def idle (p : Port) (s : State) : Bool := (outq p s).isEmpty

/-- The free-space condition of a command: `len(enc.outq) ≤ ENC_OUT_DEPTH - 3`, `len(dec.outq) ≤ DEC_OUT_DEPTH - 1`
(R69), written without subtraction. It does not depend on the command. -/
def hasRoom (p : Port) (s : State) : Bool :=
  decide ((outq p s).length + Config.mostOutputs p ≤ Config.outDepth p)

/-- A command step of the unit is enabled: reset done and room in the queue (R69, 70_reset_and_hazards.md R192). -/
def cmdReady (p : Port) (s : State) : Bool := s.wasReset && hasRoom p s

/-- An output step of the unit is enabled: reset done and the queue not empty (R70, R192). -/
def outValid (p : Port) (s : State) : Bool := s.wasReset && !idle p s

end Sys2Proof.Machine
end

