-- ==== Sys2Proof/Machine/Ops.lean ====
section
/-! DEFINITION. The named operations over the state that the meanings share: pushing and popping a queue, accepting a
command, the host's record of what it sees, and reset. The block has no memory (20_memory.md R40) and takes no exception
(60_exceptions.md R160, R163), so there is no memory operation and no exception entry or return here. -/

namespace Sys2Proof.Machine

open Sys2Proof

/-- `OutPush(ENC, v)` for each value of `vs` in order (00_scope.md R10). -/
def EncState.push (e : EncState) (vs : List Byte) : EncState := { e with outq := e.outq ++ vs }

/-- `OutPush(DEC, v)` for each value of `vs` in order (00_scope.md R10). -/
def DecState.push (d : DecState) (vs : List Byte) : DecState := { d with outq := d.outq ++ vs }

/-- The unit is between calls: `phase = 0, res = 0` (10_state.md R30). -/
abbrev EncState.betweenCalls (e : EncState) : Prop := e.phase = 0 ∧ e.res = 0

/-- The unit is between calls: `phase = 0, res = 0` (10_state.md R30). -/
abbrev DecState.betweenCalls (d : DecState) : Prop := d.phase = 0 ∧ d.res = 0

/-- Update of the encoder unit alone (10_state.md R29). -/
def State.setEnc (s : State) (e : EncState) : State := { s with enc := e }

/-- Update of the decoder unit alone (10_state.md R29). -/
def State.setDec (s : State) (d : DecState) : State := { s with dec := d }

/-- The host's record of a unit (70_reset_and_hazards.md R193). -/
def State.record (s : State) (p : Port) : Record :=
  match p with
  | .enc => s.host.enc
  | .dec => s.host.dec

/-- Update of the host's record of one unit. -/
def State.setRecord (s : State) (p : Port) (r : Record) : State :=
  match p with
  | .enc => { s with host := { s.host with enc := r } }
  | .dec => { s with host := { s.host with dec := r } }

/-- Update of the host's script. -/
def State.setScript (s : State) (ms : List Move) : State := { s with host := { s.host with script := ms } }

/-- The host has received one value. -/
def Record.deliver (r : Record) (v : Byte) : Record := { r with popped := r.popped ++ [v] }

/-- The host has read the idle status. -/
def Record.sawIdle (r : Record) (b : Bool) : Record := { r with idleReads := r.idleReads ++ [b] }

/-- An `END` was accepted with `pending` values still queued: the call's values end after them (R193). -/
def Record.close (r : Record) (pending : Nat) : Record :=
  { r with bounds := r.bounds ++ [⟨.ended, r.popped.length + pending⟩] }

/-- A call is complete when "its `END` has been accepted and every value it appended has been popped" (R193), the call's
values being those from position `start` up to the boundary, of which the first `n` in the stream have been popped. A call that
appended nothing is complete at its `END`, whatever earlier calls have left in the queue. -/
def Boundary.complete (n start : Nat) (b : Boundary) : Bool :=
  decide (b.how = .ended ∧ (b.pos ≤ n ∨ b.pos = start))

/-- A boundary after a reset with `n` values popped: a complete call stays complete; any other call has lost the rest of its
values and counts as abandoned (70_reset_and_hazards.md R181, R187; DESIGN CHOICE, log entry 7). Nothing lies beyond the values
popped any more. -/
def Boundary.cutAt (n start : Nat) (b : Boundary) : Boundary :=
  { how := if b.complete n start then .ended else .abandoned, pos := min b.pos n }

/-- The boundaries after a reset with `n` values popped, the first call's values starting at position `start`. -/
def cutBounds (n start : Nat) : List Boundary → List Boundary
  | [] => []
  | b :: bs => b.cutAt n start :: cutBounds n b.pos bs

/-- A reset: values still queued are lost, and the call in progress is abandoned where the popped values end (R181). -/
def Record.abandon (r : Record) : Record :=
  { r with bounds := cutBounds r.popped.length 0 r.bounds ++ [⟨.abandoned, r.popped.length⟩] }

/-- Acceptance of a command of port `p`, whose effect is `k` (30_encoding.md R69; 70_reset_and_hazards.md R184, R189).
Before the first reset there is no step. Without room the unit accepts nothing and nothing changes: the host goes on
holding the command (DEDUCED, log entry 4). -/
def acceptCommand (p : Port) (s : State) (k : State → Outcome) : Outcome :=
  if s.wasReset then
    if hasRoom p s then k s else .next s
  else .refused .beforeReset

/-- The encoder's new unit state in the machine, or the refusal of a state the spec gives no meaning (10_state.md R31). -/
def commitEnc (s : State) (e : Option EncState) : Outcome :=
  match e with
  | some e' => .next (s.setEnc e')
  | none => .refused .phaseUnspecified

/-- `OutPop(u)`: remove the head of the queue and deliver it to the host (00_scope.md R10, 30_encoding.md R70). With an
empty queue nothing is transferred and nothing changes. -/
def popUnit (p : Port) (s : State) : State :=
  match p with
  | .enc =>
    match s.enc.outq with
    | [] => s
    | v :: q => (s.setEnc { s.enc with outq := q }).setRecord .enc (s.host.enc.deliver v)
  | .dec =>
    match s.dec.outq with
    | [] => s
    | v :: q => (s.setDec { s.dec with outq := q }).setRecord .dec (s.host.dec.deliver v)

/-- The effect of reset on the block, and on what the host knows of the calls it was making (70_reset_and_hazards.md
R181). It needs no earlier reset: it is how the machine leaves the power-on state (R184). -/
def resetBlock (s : State) : State :=
  { enc := EncState.reset
    dec := DecState.reset
    wasReset := true
    host := { s.host with enc := s.host.enc.abandon, dec := s.host.dec.abandon } }

/-- `POP ENC` / `POP DEC` (30_encoding.md R70, R72; 70_reset_and_hazards.md R184). -/
def execPop (p : Port) (s : State) : Outcome :=
  if s.wasReset then .next (popUnit p s) else .refused .beforeReset

/-- A read of `enc_idle` / `dec_idle` (10_state.md R27; 70_reset_and_hazards.md R192: "always after reset"). No side effect
on the block (20_memory.md R49). -/
def execReadIdle (p : Port) (s : State) : Outcome :=
  if s.wasReset then .next (s.setRecord p ((s.record p).sawIdle (idle p s))) else .refused .beforeReset

/-- `RESET` (70_reset_and_hazards.md R180, R181). -/
def execReset (s : State) : Outcome := .next (resetBlock s)

end Sys2Proof.Machine
end

