-- ==== Sys2Proof/Machine/Decoder.lean ====
section
/-! DEFINITION. The decoder's commands (42_decoder.md R133, R134). -/

namespace Sys2Proof.Machine

open Sys2Proof

/-- R133 for a code that survives the filter, with alphabet index `v`. -/
def decIndexUnit (v : Sextet) (d : DecState) : DecState :=
  if d.phase = 0 then
    { d with res := v, phase := 1 }
  else if d.phase = 1 then
    let x := decJoin1 d.res v
    { d.push [x.extractLsb' 4 8] with res := (x.extractLsb' 0 4).setWidth 6, phase := 2 }
  else if d.phase = 2 then
    let x := decJoin2 d.res v
    { d.push [x.extractLsb' 2 8] with res := (x.extractLsb' 0 2).setWidth 6, phase := 3 }
  else
    { d.push [decJoin3 d.res v] with res := 0, phase := 0 }

/-- R133: what `DEC.DATA c` does to the decoder unit; a code outside the alphabet changes nothing (R131). -/
def decDataUnit (c : Byte) (d : DecState) : DecState :=
  if (indexOf c).valid then decIndexUnit (indexOf c).idx d else d

/-- R134: what `DEC.END` does to the decoder unit. -/
def decEndUnit (d : DecState) : DecState := { d with res := 0, phase := 0 }

/-- An accepted `DEC.END` closes the call in the host's record (70_reset_and_hazards.md R193). -/
def closeDecCall (s : State) : State := s.setRecord .dec (s.host.dec.close s.dec.outq.length)

/-- `DEC.DATA c` (R133). -/
def execDecData (c : Byte) (s : State) : Outcome :=
  acceptCommand .dec s fun s => .next (s.setDec (decDataUnit c s.dec))

/-- `DEC.END` (R134). -/
def execDecEnd (s : State) : Outcome :=
  acceptCommand .dec s fun s => .next (closeDecCall (s.setDec (decEndUnit s.dec)))

end Sys2Proof.Machine
end

