-- ==== Sys2Proof/Machine/Encoder.lean ====
section
/-! DEFINITION. The encoder's commands (41_encoder.md R103, R104). -/

namespace Sys2Proof.Machine

open Sys2Proof

/-- R103: what `ENC.DATA b` does to the encoder unit, case by case of `enc.phase`; none for phase 3, which has no case. -/
def encDataUnit (b : Byte) (e : EncState) : Option EncState :=
  if e.phase = 0 then
    some { e.push [symbolOf (b.extractLsb' 2 6)] with res := (b.extractLsb' 0 2).setWidth 4, phase := 1 }
  else if e.phase = 1 then
    let x := encJoin1 e.res b
    some { e.push [symbolOf (x.extractLsb' 4 6)] with res := x.extractLsb' 0 4, phase := 2 }
  else if e.phase = 2 then
    let x := encJoin2 e.res b
    some { e.push [symbolOf (x.extractLsb' 6 6), symbolOf (x.extractLsb' 0 6)] with res := 0, phase := 0 }
  else none

/-- R104: what `ENC.END` does to the encoder unit; none for phase 3, which has no case. -/
def encEndUnit (e : EncState) : Option EncState :=
  if e.phase = 0 then
    some { e with res := 0, phase := 0 }
  else if e.phase = 1 then
    some { e.push [symbolOf (encTail1 e.res), Config.padCode, Config.padCode] with res := 0, phase := 0 }
  else if e.phase = 2 then
    some { e.push [symbolOf (encTail2 e.res), Config.padCode] with res := 0, phase := 0 }
  else none

/-- An accepted `ENC.END` closes the call in the host's record (70_reset_and_hazards.md R193). -/
def closeEncCall (s : State) : State := s.setRecord .enc (s.host.enc.close s.enc.outq.length)

/-- An accepted `ENC.END` in the machine: the unit's effect, then the call's end in the host's record. -/
def encEndAccepted (s : State) : Outcome :=
  match encEndUnit s.enc with
  | some e => .next (closeEncCall (s.setEnc e))
  | none => .refused .phaseUnspecified

/-- `ENC.DATA b` (R103). -/
def execEncData (b : Byte) (s : State) : Outcome :=
  acceptCommand .enc s fun s => commitEnc s (encDataUnit b s.enc)

/-- `ENC.END` (R104). -/
def execEncEnd (s : State) : Outcome :=
  acceptCommand .enc s encEndAccepted

end Sys2Proof.Machine
end

