-- ==== Sys2Proof/Machine/Moves.lean ====
section
/-! DEFINITION. The host's transactions (70_reset_and_hazards.md R192): when each is enabled, what it does, and a sequence
of transactions that are each enabled when they happen (00_scope.md R5). -/

namespace Sys2Proof.Machine

open Sys2Proof

/-- The column "enabled when" of R192. -/
def enabled (m : Move) (s : State) : Bool :=
  match m with
  | .cmd p _ => cmdReady p s
  | .pop p => outValid p s
  | .readIdle _ => s.wasReset
  | .reset => true

/-- One transaction (the column "block does" of R192). -/
def perform (m : Move) (s : State) : Outcome :=
  match m with
  | .cmd p w => exec (decode p w) s
  | .pop p => execPop p s
  | .readIdle p => execReadIdle p s
  | .reset => execReset s

/-- After the first reset, a transaction that is not enabled does not happen: the host holds it and waits (30_encoding.md
R69, R70; 70_reset_and_hazards.md R189; DEDUCED, log entry 4). -/
def waits (m : Move) (s : State) : Bool := s.wasReset && !enabled m s

/-- The state after a sequence of transactions, each enabled when it happens; none if one is not enabled or not a next
state. Every interleaving of the two units' transactions is such a sequence (20_memory.md R51). -/
def runMoves : List Move → State → Option State
  | [], s => some s
  | m :: ms, s =>
    if enabled m s then
      match perform m s with
      | .next t => runMoves ms t
      | .fault _ => none
      | .refused _ => none
    else none

/-- What the next transaction of the host's script does to the machine. A transaction that waits stays at the head of the
script; one that happens is taken off it. -/
def performNext (m : Move) (rest : List Move) (s : State) : Outcome :=
  if waits m s then .next s else perform m (s.setScript rest)

/-- The command a transaction is, if it is one. -/
def Move.command : Move → Option Instr
  | .cmd p w => some (decode p w)
  | .pop _ => none
  | .readIdle _ => none
  | .reset => none

/-- The commands of one port among the transactions, in order (20_memory.md R50: the order they are accepted in). -/
def commandsOn (p : Port) (ms : List Move) : List Instr :=
  (ms.filterMap Move.command).filter (wellFormedOn p)

/-- The port a transaction acts on; a reset acts on both. -/
def Move.port : Move → Option Port
  | .cmd p _ => some p
  | .pop p => some p
  | .readIdle p => some p
  | .reset => none

/-- The transactions of one unit: its own, and the resets (10_state.md R29). -/
def movesOf (p : Port) (ms : List Move) : List Move :=
  ms.filter fun m => decide (m.port = some p) || decide (m = .reset)

/-- Put a command at the head of the host's script, so that it is the next transaction. A number that is no 9-bit word
offers nothing. -/
def placeCommand (p : Port) (w : Nat) (s : State) : State :=
  if w < 512 then s.setScript (.cmd p (BitVec.ofNat 9 w) :: s.host.script) else s

end Sys2Proof.Machine
end

