-- ==== Sys2Proof/Machine/Step.lean ====
section
/-! DEFINITION. One step of the machine: the next transaction of the host's script (00_scope.md R5, R6). -/

namespace Sys2Proof.Machine

open Sys2Proof

/-- One step. With an empty script nothing happens: "A unit with no command to accept and nothing to deliver simply does
nothing" (60_exceptions.md R170). -/
def step (s : State) : Host.Outcome State Fault Refusal :=
  match s.host.script with
  | [] => .next s
  | m :: rest => performNext m rest s

/-- The host's fixed name: the word placed as the next transaction, on the encoder port (DESIGN CHOICE, log entries 2 and 3). -/
def State.withFetchWord (s : State) (_nbits w : Nat) : State := placeCommand .enc w s

end Sys2Proof.Machine
end

