-- ==== Sys2Proof/Machine/Observe.lean ====
section
/-! DEFINITION. The observation of a run (70_reset_and_hazards.md R193): for each unit the values popped, split into calls,
and the final state of 10_state.md R20. -/

namespace Sys2Proof.Machine

open Sys2Proof

/-- The calls among the boundaries `bs`, the first one starting at position `start` of the popped values, each with the
values popped of it so far and how it closed. -/
def callsFrom (popped : List Byte) (start : Nat) : List Boundary → List (CallClose × List Byte)
  | [] => []
  | b :: bs => (b.how, (popped.take b.pos).drop start) :: callsFrom popped b.pos bs

/-- Where the call in progress starts in the stream of values (after the last boundary). -/
def openStart (r : Record) : Nat := (r.bounds.getLast?.map Boundary.pos).getD 0

/-- The values of the complete calls (R193, `Boundary.complete`), the first one starting at position `start`. -/
def completeFrom (popped : List Byte) (start : Nat) : List Boundary → List (List Byte)
  | [] => []
  | b :: bs =>
    if b.complete popped.length start then (popped.take b.pos).drop start :: completeFrom popped b.pos bs
    else completeFrom popped b.pos bs

/-- What the host observed of one unit, split into calls: the closed calls, then the values of the call in progress. -/
structure UnitObservation where
  calls : List (CallClose × List Byte)
  inProgress : List Byte
  deriving DecidableEq, Repr

/-- The observation of a run (R193). -/
structure Observation where
  encoder : UnitObservation
  decoder : UnitObservation
  encFinal : EncState
  decFinal : DecState
  deriving DecidableEq, Repr

def Record.observed (r : Record) : UnitObservation :=
  { calls := callsFrom r.popped 0 r.bounds, inProgress := r.popped.drop (openStart r) }

/-- The values of each complete call of a unit, oldest first (R193). -/
def Record.completeCalls (r : Record) : List (List Byte) := completeFrom r.popped 0 r.bounds

def observation (s : State) : Observation :=
  { encoder := s.host.enc.observed, decoder := s.host.dec.observed, encFinal := s.enc, decFinal := s.dec }

end Sys2Proof.Machine
end

