-- ==== Sys2Proof/Machine/Pseudo.lean ====
section
/-! DEFINITION. The host's notation for sequences of transactions (30_encoding.md R72, R73). -/

namespace Sys2Proof.Machine

open Sys2Proof

/-- The transaction that issues a command, with its word (R72). -/
def issue (i : Instr) : Move := .cmd i.port (encode i)

/-- `ENC.BYTES b0, …, bk` (R73). -/
def encBytes (B : List Byte) : List Move := B.map fun b => issue (.encData b)

/-- `ENC.CALL b0, …, bk`; with no operand `ENC.END` alone (R73). -/
def encCall (B : List Byte) : List Move := encBytes B ++ [issue .encEnd]

/-- `DEC.TEXT "s"`, over the character codes of `s` (R73). -/
def decText (T : List Byte) : List Move := T.map fun c => issue (.decData c)

/-- `DEC.CALL "s"` (R73). -/
def decCall (T : List Byte) : List Move := decText T ++ [issue .decEnd]

/-- `DRAIN u`: pop until the unit is idle (R73); from state `s` that is one pop for each queued value. -/
def drain (p : Port) (s : State) : List Move := List.replicate (outq p s).length (.pop p)

end Sys2Proof.Machine
end

