-- ==== Sys2Proof/Machine/Port.lean ====
section
/-! DEFINITION. The port level: one rising edge of `clk` (30_encoding.md R66 to R70; 60_exceptions.md R164, R165, R171;
70_reset_and_hazards.md R180 to R183, R186). It lies over the transaction level: the block's state and the effect of every
transfer are the machine's own, and this file adds when the ports offer and accept. No value depends on what it adds (R191).
`LATENCY`, `RESET_READY_DELAY` and the stalls are uninterpreted (Config), so a claim holds for all of them; DESIGN CHOICE, log entries 9, 10. -/

namespace Sys2Proof.Machine

open Sys2Proof

/-- The signals the host drives on one unit's ports at an edge (R66). -/
structure UnitIn where
  cmdValid : Bool
  cmdData : CmdWord
  outReady : Bool
  deriving DecidableEq, Repr

/-- The input signals of the block at an edge (R66). -/
structure PortIn where
  rst : Bool
  enc : UnitIn
  dec : UnitIn
  deriving DecidableEq, Repr

/-- The signals one unit drives (R66). -/
structure UnitOut where
  cmdReady : Bool
  outValid : Bool
  outData : Byte
  idle : Bool
  deriving DecidableEq, Repr

/-- The output signals of the block (R66). -/
structure PortOut where
  enc : UnitOut
  dec : UnitOut
  deriving DecidableEq, Repr

/-- What the port level adds to one unit. -/
structure UnitTiming where
  /-- for each value of the unit's queue, the cycles left before it is visible (R69 `inflight`, R70) -/
  waits : List Nat
  /-- cycles left of the delay after reset (70_reset_and_hazards.md R183) -/
  readyDelay : Nat
  /-- cycles left for which ready is 0 although there is room (R69) -/
  stall : Nat
  /-- the command offered at the last edge and not transferred (R68) -/
  offer : Option CmdWord
  deriving DecidableEq, Repr

/-- The machine with its ports. `cycle` counts edges, so that each free value is fresh (the model's own field, DESIGN CHOICE, log entry 10). -/
structure PortState where
  core : State
  enc : UnitTiming
  dec : UnitTiming
  cycle : Nat
  deriving DecidableEq, Repr

/-- What an edge answers. -/
abbrev PortOutcome := Host.Outcome PortState Fault Refusal

def PortIn.unit (i : PortIn) : Port → UnitIn
  | .enc => i.enc
  | .dec => i.dec

def PortState.timing (ps : PortState) : Port → UnitTiming
  | .enc => ps.enc
  | .dec => ps.dec

/-- The unit is ready for a command, seen from its registers alone: reset done, the delay after reset over, no stall, and
room in the queue, values in the pipeline counted (R69, R183). -/
def unitReady (p : Port) (ps : PortState) : Bool :=
  cmdReady p ps.core && (ps.timing p).readyDelay == 0 && (ps.timing p).stall == 0

/-- The head of the queue is visible: its `LATENCY` has elapsed (R70). -/
def headVisible (p : Port) (ps : PortState) : Bool :=
  outValid p ps.core && (ps.timing p).waits.head? == some 0

/-- `cmd_ready` (R69; 0 while `rst = 1`, R182; unspecified before the first reset, 10_state.md R31). -/
def cmdReadySignal (p : Port) (i : PortIn) (ps : PortState) : Bool :=
  if i.rst then false
  else if ps.core.wasReset then unitReady p ps
  else Config.freeSignal p (2 * ps.cycle)

/-- `out_valid` (R70; 0 while `rst = 1`, R182; unspecified before the first reset, 10_state.md R31). -/
def outValidSignal (p : Port) (i : PortIn) (ps : PortState) : Bool :=
  if i.rst then false
  else if ps.core.wasReset then headVisible p ps
  else Config.freeSignal p (2 * ps.cycle + 1)

/-- `out_data`: the head value when `out_valid = 1`, any value otherwise (R70). Before the first reset any value (R31). -/
def outDataSignal (p : Port) (i : PortIn) (ps : PortState) : Byte :=
  match outq p ps.core with
  | v :: _ => if outValidSignal p i ps && ps.core.wasReset then v else Config.freeOutData p ps.cycle
  | [] => Config.freeOutData p ps.cycle

/-- `enc_idle`, `dec_idle`: no accepted command has an output not yet transferred, the pipeline counted (10_state.md R27);
any value while `rst = 1` (R182) and before the first reset (R31). -/
def idleSignal (p : Port) (i : PortIn) (ps : PortState) : Bool :=
  if i.rst then Config.freeIdle p ps.cycle
  else if ps.core.wasReset then idle p ps.core
  else Config.freeIdle p ps.cycle

def unitOut (p : Port) (i : PortIn) (ps : PortState) : UnitOut :=
  { cmdReady := cmdReadySignal p i ps
    outValid := outValidSignal p i ps
    outData := outDataSignal p i ps
    idle := idleSignal p i ps }

/-- The output signals in the cycle that ends at the edge with inputs `i` (R66). -/
def outputs (i : PortIn) (ps : PortState) : PortOut := { enc := unitOut .enc i ps, dec := unitOut .dec i ps }

/-- A command transfer at the edge: `rst = 0`, valid and ready (R67). -/
def cmdTransfer (p : Port) (i : PortIn) (ps : PortState) : Bool :=
  (i.unit p).cmdValid && cmdReadySignal p i ps

/-- An output transfer at the edge: `rst = 0`, valid and ready (R67). -/
def outTransfer (p : Port) (i : PortIn) (ps : PortState) : Bool :=
  (i.unit p).outReady && outValidSignal p i ps

/-- The transactions of an edge without reset. The pops come first: an edge pops only what was offered before it, and
every order gives the same result (60_exceptions.md R165). -/
def edgeMoves (i : PortIn) (ps : PortState) : List Move :=
  (if outTransfer .enc i ps then [Move.pop .enc] else [])
  ++ (if outTransfer .dec i ps then [Move.pop .dec] else [])
  ++ (if cmdTransfer .enc i ps then [Move.cmd .enc i.enc.cmdData] else [])
  ++ (if cmdTransfer .dec i ps then [Move.cmd .dec i.dec.cmdData] else [])

/-- The host's duty at a command port: an offered command stays offered, unchanged, until its transfer (R68). `edge` asks it
at edges with `rst = 0` only (DESIGN CHOICE, log entry 19). -/
def dutyKept (u : UnitIn) (t : UnitTiming) : Bool :=
  match t.offer with
  | none => true
  | some w => u.cmdValid && u.cmdData == w

/-- The host asks for a transfer on a unit's ports. -/
def UnitIn.asks (u : UnitIn) : Bool := u.cmdValid || u.outReady

/-- A unit's timing after an edge at which it ran from queue length `before` to `after` (R69, R70). -/
def nextTiming (p : Port) (i : PortIn) (ps : PortState) (after : Nat) : UnitTiming :=
  let t := ps.timing p
  let popped := outTransfer p i ps
  let taken := cmdTransfer p i ps
  let kept := if popped then t.waits.tail else t.waits
  { waits := kept.map Nat.pred ++ List.replicate (after - kept.length) Config.latency
    readyDelay := t.readyDelay - 1
    stall :=
      if t.stall = 0 then Config.freeStall p ps.cycle
      else if cmdReady p ps.core then t.stall - 1
      else t.stall
    offer := if (i.unit p).cmdValid && !taken then some (i.unit p).cmdData else none }

/-- A unit's timing after an edge with `rst = 1` (70_reset_and_hazards.md R181 to R183). -/
def resetTiming (p : Port) (ps : PortState) : UnitTiming :=
  { waits := []
    readyDelay := min (Config.freeResetDelay p ps.cycle) Config.resetReadyDelay
    stall := Config.freeStall p ps.cycle
    offer := none }

/-- The edge with `rst = 1`: it has priority over every transfer, and an offered command counts as not accepted
(60_exceptions.md R164). No offer is held over it: whether the host's duty of 30_encoding.md R68 binds at this edge the spec
does not say (DESIGN CHOICE, log entry 19). -/
def resetEdge (ps : PortState) : PortState :=
  { core := resetBlock ps.core
    enc := resetTiming .enc ps
    dec := resetTiming .dec ps
    cycle := ps.cycle + 1 }

/-- Perform transactions one after another, whether or not they are enabled. -/
def performList : List Move → State → Outcome
  | [], s => .next s
  | m :: ms, s =>
    match perform m s with
    | .next t => performList ms t
    | .fault f => .fault f
    | .refused r => .refused r

/-- The edge with `rst = 0` after the first reset: the transfers of R67, in the order of `edgeMoves`. -/
def transferEdge (i : PortIn) (ps : PortState) : PortOutcome :=
  match performList (edgeMoves i ps) ps.core with
  | .next t =>
    .next
      { core := t
        enc := nextTiming .enc i ps t.enc.outq.length
        dec := nextTiming .dec i ps t.dec.outq.length
        cycle := ps.cycle + 1 }
  | .fault f => .fault f
  | .refused r => .refused r

/-- One rising edge of `clk` with input signals `i`. The host's duty (R68, R171) is checked at edges with `rst = 0` only: a
host that withdraws or changes a held command at an edge with `rst = 1` is not refused, because R68 names no reset exception
for the host and R164 speaks only of offering the command again after reset (DESIGN CHOICE, log entry 19). Before the first reset only reset has a meaning: a host that asks for
a transfer then is refused (70_reset_and_hazards.md R184; DEDUCED, log entry 15). -/
def edge (i : PortIn) (ps : PortState) : PortOutcome :=
  if i.rst then .next (resetEdge ps)
  else if ps.core.wasReset then
    if dutyKept i.enc ps.enc && dutyKept i.dec ps.dec then transferEdge i ps else .refused .hostProtocol
  else if i.enc.asks || i.dec.asks then .refused .beforeReset
  else .next { ps with cycle := ps.cycle + 1 }

/-- The machine at its ports when power comes on (10_state.md R31). -/
def PortState.powerOn : PortState :=
  { core := State.powerOn
    enc := { waits := [], readyDelay := 0, stall := 0, offer := none }
    dec := { waits := [], readyDelay := 0, stall := 0, offer := none }
    cycle := 0 }

/-- The machine at its ports right after one edge of reset from power-on (R180, R184). -/
def PortState.afterReset : PortState := resetEdge PortState.powerOn

/-- A run over a list of edges, stopping at the first refusal. -/
def runEdges : List PortIn → PortState → PortOutcome
  | [], ps => .next ps
  | i :: is, ps =>
    match edge i ps with
    | .next qs => runEdges is qs
    | .fault f => .fault f
    | .refused r => .refused r

/-- A unit's timing fits its queue: one entry of `waits` for each queued value, none longer than `LATENCY`, in the order in
which they become visible. -/
abbrev UnitTiming.fits (t : UnitTiming) (q : List Byte) : Prop :=
  t.waits.length = q.length ∧ (∀ n ∈ t.waits, n ≤ Config.latency) ∧ t.waits.Pairwise (· ≤ ·)

/-- The invariant of the port level after the first reset. -/
abbrev PortState.Inv (ps : PortState) : Prop :=
  ps.core.wasReset = true → ps.enc.fits ps.core.enc.outq ∧ ps.dec.fits ps.core.dec.outq

end Sys2Proof.Machine
end

