-- ==== Sys2Proof/Machine/Reference.lean ====
section
/-! DEFINITION. The document's whole-call functions, which are normative for values: `ENCODE` (41_encoder.md R100) and
`DECODE` (42_decoder.md R130), over the bit sequences of 00_scope.md R9. The machine does not use them; claims about complete
calls compare it with them. -/

namespace Sys2Proof.Machine

open Sys2Proof

/-- `BITS_n(v)`: the bits of `v`, most significant first (R9, 20_memory.md R43). -/
def bitsOf {n : Nat} (v : BitVec n) : List Bool := (List.range n).map v.getMsbD

/-- `VAL(bs)`: the number whose binary digits, most significant first, are `bs` (R9). -/
def valOf (bs : List Bool) : Nat := bs.foldl (fun a b => 2 * a + b.toNat) 0

/-- `s[i..j)` (R9), cut at the end of the sequence. -/
def sliceOf {α : Type} (s : List α) (i j : Nat) : List α := (s.drop i).take (j - i)

/-- `ceil(a / b)` for `b > 0` (R9). -/
def ceilDiv (a b : Nat) : Nat := (a + b - 1) / b

/-- The bit stream of a byte sequence (R100). -/
def byteStream (B : List Byte) : List Bool := B.flatMap bitsOf

/-- The bit stream of a sequence of alphabet indices (R130). -/
def sextetStream (F : List Sextet) : List Bool := F.flatMap bitsOf

/-- The value of a window right-padded with zero bits to six (R100). -/
def sextetOf (w : List Bool) : Sextet := BitVec.ofNat 6 (valOf (w ++ List.replicate (6 - w.length) false))

/-- The value of a full 8-bit window (R130). -/
def byteOf (w : List Bool) : Byte := BitVec.ofNat 8 (valOf w)

/-- Window `j` of the encoder's stream, as a symbol code (R100). -/
def symbolAt (S : List Bool) (j : Nat) : Byte := symbolOf (sextetOf (sliceOf S (6 * j) (6 * j + 6)))

/-- Window `j` of the decoder's stream, as a byte (R130). -/
def byteAt (S : List Bool) (j : Nat) : Byte := byteOf (sliceOf S (8 * j) (8 * j + 8))

/-- `ENCODE(B)` (R100). -/
def refEncode (B : List Byte) : List Byte :=
  let N := B.length
  if N = 0 then []
  else
    let S := byteStream B
    let K := ceilDiv (8 * N) 6
    let P := (4 - K % 4) % 4
    (List.range K).map (symbolAt S) ++ List.replicate P Config.padCode

/-- The filter of R131: the indices of the surviving codes, in order. -/
def surviving (T : List Byte) : List Sextet :=
  (T.filter fun c => (indexOf c).valid).map fun c => (indexOf c).idx

/-- `DECODE(T)` (R130). -/
def refDecode (T : List Byte) : List Byte :=
  let F := surviving T
  let S := sextetStream F
  (List.range (6 * F.length / 8)).map (byteAt S)

end Sys2Proof.Machine
end

