-- ==== Sys2Proof/Safety.lean ====
section
/-! DEFINITION. What counts as a legal state and a safe run. -/

namespace Sys2Proof.Machine

open Sys2Proof

/-- The legal values of the encoder (10_state.md R20 to R23). -/
abbrev EncState.legal (e : EncState) : Prop :=
  e.phase ≠ 3 ∧ e.res.toNat < 2 ^ encWidth e.phase ∧ e.outq.length ≤ Config.encOutDepth

/-- The legal values of the decoder (10_state.md R20, R24 to R26). -/
abbrev DecState.legal (d : DecState) : Prop :=
  d.res.toNat < 2 ^ decWidth d.phase ∧ d.outq.length ≤ Config.decOutDepth

/-- The host's record of a unit with `pending` values queued: the calls' ends are in order, and each lies among the values
popped or still queued. -/
abbrev Record.legal (r : Record) (pending : Nat) : Prop :=
  (r.bounds.map Boundary.pos).Pairwise (· ≤ ·) ∧ ∀ b ∈ r.bounds, b.pos ≤ r.popped.length + pending

/-- The machine is legal: what R20 calls legal in both units, with a record that fits. -/
abbrev State.legal (s : State) : Prop :=
  s.enc.legal ∧ s.dec.legal ∧ s.host.enc.legal s.enc.outq.length ∧ s.host.dec.legal s.dec.outq.length

/-- The invariant of every run, power-on included: nothing is known of the block before the first reset (10_state.md R31),
except that the host's record is in order; after it the machine is legal. -/
abbrev State.Inv (s : State) : Prop :=
  (s.host.enc.bounds.map Boundary.pos).Pairwise (· ≤ ·) ∧ (s.host.dec.bounds.map Boundary.pos).Pairwise (· ≤ ·)
    ∧ (s.wasReset = true → s.legal)

/-- A value the encoder may output: a symbol code or `PAD_CODE` (30_encoding.md R65, 41_encoder.md R110). -/
def encOutputCode (v : Byte) : Prop := (∃ i, v = symbolOf i) ∨ v = Config.padCode

/-- Every value queued in or popped from the encoder is an output code. -/
def State.encOutputsLegal (s : State) : Prop :=
  s.wasReset = true → (∀ v ∈ s.enc.outq, encOutputCode v)

/-- A safe step: the machine answers a next state, no fault and no refusal (60_exceptions.md R160). -/
def safeStep (s : State) : Prop := ∃ t, step s = .next t

end Sys2Proof.Machine
end

