-- ==== Sys2Proof/Certificates/Slice0/Obligations.lean ====
section
/-! DEFINITION. The statements for the provers. Each docstring names the rules of spec/ it formalises. -/

open Sys2Proof Sys2Proof.Machine

/-! ## Commands, words and the step -/

/-- R63, R64. Every word on every port matches exactly one row of the opcode map of that port, and decodes to the command
of that row, which is well-formed on the port. -/
def Obligations.EveryWordMatchesOneRow : Prop :=
  ∀ (p : Port) (w : CmdWord),
    (opcodeMap.filter fun r => r.matchesWord p w).length = 1
      ∧ wellFormedOn p (decode p w) = true
      ∧ ∀ r ∈ opcodeMap, r.matchesWord p w = true → mnemonic (decode p w) = r.mnemonic

/-- R60, R61. With `cmd[8] = 0` a word is the `DATA` command of its port whose operand has exactly the bits `cmd[7:0]`;
with `cmd[8] = 1` it is the `END` command of its port. -/
def Obligations.WordFieldsSelectCommand : Prop :=
  ∀ w : CmdWord,
    (w.getLsbD 8 = false → ∃ d : Byte, (∀ k < 8, d.getLsbD k = w.getLsbD k)
        ∧ decode .enc w = .encData d ∧ decode .dec w = .decData d)
      ∧ (w.getLsbD 8 = true → decode .enc w = .encEnd ∧ decode .dec w = .decEnd)

/-- R60, R62, R63. Decoding on a port what a command well-formed on that port encodes to gives the command back; encoding
what a word decodes to gives the word back, but for the ignored field of an `END`, which comes back as zero. -/
def Obligations.DecodeEncodeAgree : Prop :=
  (∀ (p : Port) (i : Instr), wellFormedOn p i = true → decode p (encode i) = i)
    ∧ ∀ (p : Port) (w : CmdWord), encode (decode p w) = if w.getLsbD 8 then 0x100 else w

/-- R62. `OP = 1` selects the `END` command of the port; the unit ignores `cmd[7:0]` of it, so that any two `END` words of a port
are the same transaction, in every state; and accepting one closes the call: the unit is between calls afterwards. -/
def Obligations.EndIgnoresItsDataField : Prop :=
  ∀ (p : Port) (d₁ d₂ : Byte) (s : State),
    decode p (packWord 1 d₁) = (match p with | .enc => .encEnd | .dec => .decEnd)
      ∧ perform (.cmd p (packWord 1 d₁)) s = perform (.cmd p (packWord 1 d₂)) s
      ∧ (cmdReady p s = true → ∀ t, perform (.cmd p (packWord 1 d₁)) s = .next t →
        match p with | .enc => t.enc.betweenCalls | .dec => t.dec.betweenCalls)

/-- R64 (95_test_vectors.md V16). A few words written out bit by bit decode as the vector's table says. -/
def Obligations.SampleWordsDecode : Prop :=
  decode .enc 0b001001101 = .encData 0x4D ∧ decode .dec 0b001001101 = .decData 0x4D
    ∧ decode .enc 0b011111111 = .encData 0xFF ∧ decode .dec 0b000000000 = .decData 0x00
    ∧ decode .enc 0b100111101 = .encEnd ∧ decode .dec 0b110100101 = .decEnd

/-- The step runs the decoded command. When the next transaction of the host's script is a command on port `p`, the step is
exec of the decoded command on the state with that transaction taken off the script, if the command is accepted (30_encoding.md
R69) or there has been no reset; if it must wait, the step changes nothing. The script is the model's own (log entry 1). -/
def Obligations.StepRunsDecodedCommand : Prop :=
  ∀ (s : State) (p : Port) (w : CmdWord) (rest : List Move), s.host.script = .cmd p w :: rest →
    (cmdReady p s = true → step s = exec (decode p w) (s.setScript rest))
      ∧ (s.wasReset = false → step s = exec (decode p w) (s.setScript rest))
      ∧ (s.wasReset = true → cmdReady p s = false → step s = .next s)

/-- The host's fixed names agree with the step: a table word placed by `withFetchWord` is read by `decodeTableWord` and run
by the very next step, on the encoder port (the model's choice, log entries 2 and 3). -/
def Obligations.PlacedWordRunsNext : Prop :=
  ∀ (s : State) (nbits w : Nat) (i : Instr), decodeTableWord nbits w = some i → cmdReady .enc s = true →
    step (s.withFetchWord nbits w) = exec i s

/-- The host's script is performed one transaction a step: a sequence of transactions that are each enabled when they happen
is run by as many steps of the machine. The script is the model's own (log entry 1). -/
def Obligations.ScriptRunsAsTransactions : Prop :=
  ∀ (s t : State) (ms rest : List Move), runMoves ms s = some t →
    core.run ms.length (s.setScript (ms ++ rest)) = .next (t.setScript rest)

/-! ## The alphabet -/

/-- R80, R81, R82. `SYMBOL_OF` in its arithmetic form agrees with the table of R81 entry for entry; the table has 64 distinct
codes, and they stand in the order A–Z, a–z, 0–9, `+`, `/`. -/
def Obligations.SymbolOfIsTheTable : Prop :=
  alphabetTable.length = Config.nSym ∧ alphabetTable.Nodup
    ∧ (∀ i : Sextet, alphabetTable[i.toNat]? = some (symbolOf i))
    ∧ ∀ i : Sextet, (symbolOf i).toNat =
        if i.toNat ≤ 25 then i.toNat + 0x41 else if i.toNat ≤ 51 then i.toNat - 26 + 0x61
        else if i.toNat ≤ 61 then i.toNat - 52 + 0x30 else if i.toNat = 62 then 0x2B else 0x2F

/-- R85. The lookups are mutually inverse on the alphabet. -/
def Obligations.LookupsAreInverse : Prop :=
  (∀ i : Sextet, indexOf (symbolOf i) = ⟨true, i⟩)
    ∧ ∀ c : Byte, (indexOf c).valid = true → symbolOf (indexOf c).idx = c

/-- R86, with R84. Exactly 64 of the 256 codes are valid, the ones the rule lists, so that `PAD_CODE`, whitespace and newlines
are not among them; no symbol is `PAD_CODE`. -/
def Obligations.ValidCodesAreSixtyFour : Prop :=
  ((List.range 256).filter fun n => (indexOf (BitVec.ofNat 8 n)).valid).length = 64
    ∧ (∀ c : Byte, (indexOf c).valid = true ↔
        c = 0x2B ∨ c = 0x2F ∨ (0x30 ≤ c ∧ c ≤ 0x39) ∨ (0x41 ≤ c ∧ c ≤ 0x5A) ∨ (0x61 ≤ c ∧ c ≤ 0x7A))
    ∧ (∀ c ∈ [0x09, 0x0A, 0x0D, 0x20, Config.padCode], (indexOf c).valid = false)
    ∧ ∀ i : Sextet, symbolOf i ≠ Config.padCode

/-! ## The encoder's commands -/

/-- R103. `ENC.DATA b`: its encoding; when it is enabled; and, when it is, in each phase the symbols appended, the new residue
and phase, as numbers. It completes, and nothing else changes. -/
def Obligations.EncDataCompletes : Prop :=
  ∀ (s : State) (b : Byte), s.wasReset = true →
    decode .enc (packWord 0 b) = .encData b
      ∧ (enabled (.cmd .enc (packWord 0 b)) s = true ↔ s.enc.outq.length ≤ Config.encOutDepth - 3)
      ∧ (s.enc.outq.length ≤ Config.encOutDepth - 3 →
        (s.enc.phase = 0 →
          exec (.encData b) s = .next (s.setEnc
            { phase := 1, res := BitVec.ofNat 4 (b.toNat % 4)
              outq := s.enc.outq ++ [symbolOf (BitVec.ofNat 6 (b.toNat / 4))] }))
        ∧ (s.enc.phase = 1 →
          let x := s.enc.res.toNat % 4 * 256 + b.toNat
          exec (.encData b) s = .next (s.setEnc
            { phase := 2, res := BitVec.ofNat 4 (x % 16)
              outq := s.enc.outq ++ [symbolOf (BitVec.ofNat 6 (x / 16))] }))
        ∧ (s.enc.phase = 2 →
          let x := s.enc.res.toNat * 256 + b.toNat
          exec (.encData b) s = .next (s.setEnc
            { phase := 0, res := 0
              outq := s.enc.outq ++ [symbolOf (BitVec.ofNat 6 (x / 64)), symbolOf (BitVec.ofNat 6 (x % 64))] })))

/-- R104. `ENC.END`: its encoding, whatever the data field; when it is enabled; and, when it is, in each phase what it appends;
the unit is between calls afterwards and the decoder is untouched. It completes. -/
def Obligations.EncEndCompletes : Prop :=
  ∀ s : State, s.wasReset = true → s.enc.phase ≠ 3 →
    (∀ d : Byte, decode .enc (packWord 1 d) = .encEnd
      ∧ (enabled (.cmd .enc (packWord 1 d)) s = true ↔ s.enc.outq.length ≤ Config.encOutDepth - 3))
      ∧ (s.enc.outq.length ≤ Config.encOutDepth - 3 →
        ∃ t, exec .encEnd s = .next t ∧ t.enc.phase = 0 ∧ t.enc.res = 0 ∧ t.dec = s.dec
          ∧ (s.enc.phase = 0 → t.enc.outq = s.enc.outq)
          ∧ (s.enc.phase = 1 →
            t.enc.outq = s.enc.outq ++ [symbolOf (BitVec.ofNat 6 (s.enc.res.toNat % 4 * 16)), 0x3D, 0x3D])
          ∧ (s.enc.phase = 2 →
            t.enc.outq = s.enc.outq ++ [symbolOf (BitVec.ofNat 6 (s.enc.res.toNat * 4)), 0x3D]))

/-- R21, R31. `enc.phase = 3` is a value only an unreset unit can hold; both encoder commands refuse it, and no other
phase. That a state after reset with this value is refused too is the model's choice (log entry 6). -/
def Obligations.EncPhaseThreeHasNoMeaning : Prop :=
  ∀ (s : State) (i : Instr), i.port = .enc → cmdReady .enc s = true →
    (exec i s = .refused .phaseUnspecified ↔ s.enc.phase = 3)

/-- R108. How many values each encoder command appends, by the phase before it. -/
def Obligations.EncOutputsPerCommand : Prop :=
  ∀ (s : State) (b : Byte), cmdReady .enc s = true → s.enc.phase ≠ 3 →
    (∃ t vs, exec (.encData b) s = .next t ∧ t.enc.outq = s.enc.outq ++ vs
        ∧ vs.length = if s.enc.phase = 2 then 2 else 1)
      ∧ ∃ t vs, exec .encEnd s = .next t ∧ t.enc.outq = s.enc.outq ++ vs
        ∧ vs.length = if s.enc.phase = 0 then 0 else if s.enc.phase = 1 then 3 else 2

/-- The encoder commands' frame (R29, R48, R49), for a command that is accepted and for one that waits (log entry 4): the decoder, the script, the host's record of the decoder, the values popped and
the idle reads stay; the queue is only appended to. The record's call ends are the model's own (log entry 7): only an accepted
`ENC.END` adds one, where the values appended so far end. -/
def Obligations.EncCommandsFrame : Prop :=
  ∀ (s t : State) (i : Instr), i.port = .enc → exec i s = .next t →
    t.dec = s.dec ∧ t.wasReset = s.wasReset ∧ t.host.script = s.host.script ∧ t.host.dec = s.host.dec
      ∧ t.host.enc.popped = s.host.enc.popped ∧ t.host.enc.idleReads = s.host.enc.idleReads
      ∧ (∃ vs, t.enc.outq = s.enc.outq ++ vs)
      ∧ t.host.enc.bounds =
          if i = .encEnd ∧ cmdReady .enc s = true then
            s.host.enc.bounds ++ [⟨.ended, s.host.enc.popped.length + t.enc.outq.length⟩]
          else s.host.enc.bounds

/-! ## Encoder calls -/

/-- R106. After the `ENC.DATA` commands of a call for the bytes `B` and no `END`, with anything on the decoder and any pops
and idle reads in between: the phase, the residue and the values appended. -/
def Obligations.EncInvariantWithinCall : Prop :=
  ∀ (s t : State) (ms : List Move) (B : List Byte), runMoves ms s = some t → s.enc.betweenCalls →
    Move.reset ∉ ms → commandsOn .enc ms = B.map .encData →
    t.enc.phase.toNat = B.length % 3
      ∧ t.enc.res.toNat
          = valOf (sliceOf (byteStream B) (8 * B.length - 2 * (B.length % 3)) (8 * B.length))
      ∧ t.host.enc.popped ++ t.enc.outq
          = s.host.enc.popped ++ s.enc.outq ++ (List.range (8 * B.length / 6)).map (symbolAt (byteStream B))

/-- R105. A call equals `ENCODE`: the values it appends, whatever pops, idle reads and decoder transactions are interleaved,
are exactly `ENCODE(B)`, after those queued before; the unit ends between calls; once the unit is drained the host has been
delivered exactly the values queued before and then `ENCODE(B)`. -/
def Obligations.EncCallIsEncode : Prop :=
  ∀ (s t : State) (ms : List Move) (B : List Byte), runMoves ms s = some t → s.enc.betweenCalls →
    Move.reset ∉ ms → commandsOn .enc ms = B.map .encData ++ [.encEnd] →
    t.host.enc.popped ++ t.enc.outq = s.host.enc.popped ++ s.enc.outq ++ refEncode B
      ∧ t.enc.betweenCalls
      ∧ (idle .enc t = true → t.host.enc.popped = s.host.enc.popped ++ s.enc.outq ++ refEncode B)

/-- R109. Eager emission: what a call has appended before its `END` is the beginning of `ENCODE` of the call, however the
call goes on. -/
def Obligations.EncOutputsAreNeverTakenBack : Prop :=
  ∀ (s t : State) (ms : List Move) (B : List Byte), runMoves ms s = some t → s.enc.betweenCalls →
    Move.reset ∉ ms → commandsOn .enc ms = B.map .encData →
    ∃ vs, t.host.enc.popped ++ t.enc.outq = s.host.enc.popped ++ s.enc.outq ++ vs
      ∧ ∀ C : List Byte, ∃ ws, refEncode (B ++ C) = vs ++ ws

/-- R101. The length law of `ENCODE`. -/
def Obligations.EncodeLengthLaw : Prop :=
  ∀ B : List Byte, (refEncode B).length = if B.length = 0 then 0 else 4 * ceilDiv B.length 3

/-- R102, with R110. `ENCODE(B)` is symbols of the alphabet followed by exactly `(3 - N mod 3) mod 3` codes `PAD_CODE`; by
`N mod 3`, the bits in the last window, the zero bits added to it and the number of symbols modulo 4 are those of the table. -/
def Obligations.EncodePaddingLaw : Prop :=
  ∀ B : List Byte, ∃ vs, (∀ v ∈ vs, ∃ i, v = symbolOf i)
    ∧ refEncode B = vs ++ List.replicate ((3 - B.length % 3) % 3) Config.padCode
    ∧ vs.length = ceilDiv (8 * B.length) 6
    ∧ (B.length % 3 = 0 → 8 * B.length % 6 = 0 ∧ 6 * vs.length = 8 * B.length + 0 ∧ vs.length % 4 = 0)
    ∧ (B.length % 3 = 1 → 8 * B.length % 6 = 2 ∧ 6 * vs.length = 8 * B.length + 4 ∧ vs.length % 4 = 2)
    ∧ (B.length % 3 = 2 → 8 * B.length % 6 = 4 ∧ 6 * vs.length = 8 * B.length + 2 ∧ vs.length % 4 = 3)

/-- R73, R105, R189. An encoder call can always be carried out, at any depth of the queue: from a legal state between calls
with an empty queue there is a sequence of encoder commands and pops alone, each enabled when it happens, that issues the
call for `B` and delivers exactly `ENCODE(B)`, leaving the queue empty. -/
def Obligations.EncCallCanBeCompleted : Prop :=
  ∀ (s : State) (B : List Byte), s.Inv → s.wasReset = true → s.enc.betweenCalls → s.enc.outq = [] →
    ∃ ms t, (∀ m ∈ ms, m.port = some .enc) ∧ commandsOn .enc ms = B.map .encData ++ [.encEnd]
      ∧ runMoves ms s = some t ∧ t.enc.outq = [] ∧ t.enc.betweenCalls
      ∧ t.host.enc.popped = s.host.enc.popped ++ refEncode B

/-- R185. A missing `END` merges two calls: the merged call differs from the two when the first length is not a multiple of
three bytes and the second is not empty (the rule leaves the empty second call unsaid, where they are equal), and equals
them when it is. -/
def Obligations.MissingEndMergesCalls : Prop :=
  ∀ B C : List Byte,
    (B.length % 3 = 0 → refEncode (B ++ C) = refEncode B ++ refEncode C)
      ∧ (B.length % 3 ≠ 0 → C ≠ [] → refEncode (B ++ C) ≠ refEncode B ++ refEncode C)

/-! ## The decoder's commands -/

/-- R133, with the filter R131. `DEC.DATA c`: its encoding; when it is enabled, which no code changes; and, when it is: a code
outside the alphabet changes nothing at all; for a code with index `v`, in each phase, the byte appended, the new residue and
phase, as numbers. It completes, and nothing else changes. -/
def Obligations.DecDataCompletes : Prop :=
  ∀ (s : State) (c : Byte), s.wasReset = true →
    decode .dec (packWord 0 c) = .decData c
      ∧ (enabled (.cmd .dec (packWord 0 c)) s = true ↔ s.dec.outq.length ≤ Config.decOutDepth - 1)
      ∧ (s.dec.outq.length ≤ Config.decOutDepth - 1 →
        ((indexOf c).valid = false → exec (.decData c) s = .next s)
        ∧ ∀ v : Sextet, indexOf c = ⟨true, v⟩ →
          (s.dec.phase = 0 → exec (.decData c) s = .next (s.setDec { phase := 1, res := v, outq := s.dec.outq }))
          ∧ (s.dec.phase = 1 →
            let x := s.dec.res.toNat * 64 + v.toNat
            exec (.decData c) s = .next (s.setDec
              { phase := 2, res := BitVec.ofNat 6 (x % 16), outq := s.dec.outq ++ [BitVec.ofNat 8 (x / 16)] }))
          ∧ (s.dec.phase = 2 →
            let x := s.dec.res.toNat % 16 * 64 + v.toNat
            exec (.decData c) s = .next (s.setDec
              { phase := 3, res := BitVec.ofNat 6 (x % 4), outq := s.dec.outq ++ [BitVec.ofNat 8 (x / 4)] }))
          ∧ (s.dec.phase = 3 →
            let x := s.dec.res.toNat % 4 * 64 + v.toNat
            exec (.decData c) s = .next (s.setDec
              { phase := 0, res := 0, outq := s.dec.outq ++ [BitVec.ofNat 8 x] })))


/-- R134. `DEC.END`: its encoding, whatever the data field; when it is enabled; and, when it is, it leaves the unit between calls
and appends nothing, in every phase and whatever the discarded bits; the encoder is untouched. It completes. -/
def Obligations.DecEndCompletes : Prop :=
  ∀ s : State, s.wasReset = true →
    (∀ d : Byte, decode .dec (packWord 1 d) = .decEnd
      ∧ (enabled (.cmd .dec (packWord 1 d)) s = true ↔ s.dec.outq.length ≤ Config.decOutDepth - 1))
      ∧ (s.dec.outq.length ≤ Config.decOutDepth - 1 →
        ∃ t, exec .decEnd s = .next t ∧ t.dec = { phase := 0, res := 0, outq := s.dec.outq } ∧ t.enc = s.enc)

/-- The decoder commands' frame (R29, R48, R49), for a command that is accepted and for one that waits (log entry 4): the encoder, the script, the host's record of the encoder, the values popped and
the idle reads stay; the queue is only appended to, by at most one byte. The record's call ends are the model's own (log entry
7): only an accepted `DEC.END` adds one, where the values appended so far end. -/
def Obligations.DecCommandsFrame : Prop :=
  ∀ (s t : State) (i : Instr), i.port = .dec → exec i s = .next t →
    t.enc = s.enc ∧ t.wasReset = s.wasReset ∧ t.host.script = s.host.script ∧ t.host.enc = s.host.enc
      ∧ t.host.dec.popped = s.host.dec.popped ∧ t.host.dec.idleReads = s.host.dec.idleReads
      ∧ (∃ vs, vs.length ≤ 1 ∧ t.dec.outq = s.dec.outq ++ vs)
      ∧ t.host.dec.bounds =
          if i = .decEnd ∧ cmdReady .dec s = true then
            s.host.dec.bounds ++ [⟨.ended, s.host.dec.popped.length + t.dec.outq.length⟩]
          else s.host.dec.bounds

/-! ## Decoder calls -/

/-- R136. After the `DEC.DATA` commands of a call for the codes `T` and no `END`, `F` being the indices of the surviving
ones: the phase, the residue and the bytes appended. -/
def Obligations.DecInvariantWithinCall : Prop :=
  ∀ (s t : State) (ms : List Move) (T : List Byte), runMoves ms s = some t → s.dec.betweenCalls →
    Move.reset ∉ ms → commandsOn .dec ms = T.map .decData →
    let m := (surviving T).length
    t.dec.phase.toNat = m % 4
      ∧ t.dec.res.toNat = valOf (sliceOf (sextetStream (surviving T)) (6 * m - 6 * m % 8) (6 * m))
      ∧ t.host.dec.popped ++ t.dec.outq
          = s.host.dec.popped ++ s.dec.outq
            ++ (List.range (6 * m / 8)).map (byteAt (sextetStream (surviving T)))

/-- R135. A call equals `DECODE`: the values it appends, whatever pops, idle reads and encoder transactions are interleaved,
are exactly `DECODE(T)`, after those queued before; the unit ends between calls; once the unit is drained the host has been
delivered exactly the values queued before and then `DECODE(T)`. -/
def Obligations.DecCallIsDecode : Prop :=
  ∀ (s t : State) (ms : List Move) (T : List Byte), runMoves ms s = some t → s.dec.betweenCalls →
    Move.reset ∉ ms → commandsOn .dec ms = T.map .decData ++ [.decEnd] →
    t.host.dec.popped ++ t.dec.outq = s.host.dec.popped ++ s.dec.outq ++ refDecode T
      ∧ t.dec.betweenCalls
      ∧ (idle .dec t = true → t.host.dec.popped = s.host.dec.popped ++ s.dec.outq ++ refDecode T)

/-- R132. The length of `DECODE(T)` and the number of trailing bits discarded, by the number `4k + r` of surviving characters. -/
def Obligations.DecodeLengthLaw : Prop :=
  ∀ (T : List Byte) (k r : Nat), (surviving T).length = 4 * k + r → r < 4 →
    (refDecode T).length = 6 * (surviving T).length / 8
      ∧ (refDecode T).length = 3 * k + (r - 1)
      ∧ 6 * (surviving T).length - 8 * (refDecode T).length = if r = 0 then 0 else 8 - 2 * r

/-- R139. Insertion invariance: two inputs of the decoder that differ only in codes outside the alphabet, given from the
same state, leave the unit with the same phase and residue and have appended the same values. -/
def Obligations.ForeignCodesDoNotMatter : Prop :=
  ∀ (s t t' : State) (ms ms' : List Move) (T T' : List Byte),
    runMoves ms s = some t → runMoves ms' s = some t' → Move.reset ∉ ms → Move.reset ∉ ms' →
    commandsOn .dec ms = T.map .decData → commandsOn .dec ms' = T'.map .decData →
    (T.filter fun c => (indexOf c).valid) = (T'.filter fun c => (indexOf c).valid) →
    t.dec.phase = t'.dec.phase ∧ t.dec.res = t'.dec.res
      ∧ t.host.dec.popped ++ t.dec.outq = t'.host.dec.popped ++ t'.dec.outq

/-- R138. Round trip of the reference functions. -/
def Obligations.DecodeOfEncode : Prop :=
  ∀ B : List Byte, refDecode (refEncode B) = B

/-- R138. Round trip, of the functions and in the hardware: what a call of the encoder for `B` appended, fed to the decoder as
one call, makes the decoder append exactly `B`. -/
def Obligations.RoundTripThroughBothUnits : Prop :=
  (∀ B : List Byte, refDecode (refEncode B) = B)
    ∧ ∀ (s t s' t' : State) (ms ms' : List Move) (B X : List Byte),
      runMoves ms s = some t → s.enc.betweenCalls → Move.reset ∉ ms →
      commandsOn .enc ms = B.map .encData ++ [.encEnd] →
      t.host.enc.popped ++ t.enc.outq = s.host.enc.popped ++ s.enc.outq ++ X →
      runMoves ms' s' = some t' → s'.dec.betweenCalls → Move.reset ∉ ms' →
      commandsOn .dec ms' = X.map .decData ++ [.decEnd] →
      t'.host.dec.popped ++ t'.dec.outq = s'.host.dec.popped ++ s'.dec.outq ++ B

/-- R73, R135, R189. A decoder call can always be carried out, at any depth of the queue: from a legal state between calls
with an empty queue there is a sequence of decoder commands and pops alone, each enabled when it happens, that issues the
call for `T` and delivers exactly `DECODE(T)`, leaving the queue empty. -/
def Obligations.DecCallCanBeCompleted : Prop :=
  ∀ (s : State) (T : List Byte), s.Inv → s.wasReset = true → s.dec.betweenCalls → s.dec.outq = [] →
    ∃ ms t, (∀ m ∈ ms, m.port = some .dec) ∧ commandsOn .dec ms = T.map .decData ++ [.decEnd]
      ∧ runMoves ms s = some t ∧ t.dec.outq = [] ∧ t.dec.betweenCalls
      ∧ t.host.dec.popped = s.host.dec.popped ++ refDecode T

/-! ## Output, waiting and order -/

/-- R70, R49. An output step delivers the head of the queue to the host and removes it, once; it completes, and nothing else
changes. -/
def Obligations.PopDeliversTheHead : Prop :=
  ∀ (s : State) (v : Byte) (q : List Byte), s.wasReset = true →
    (s.enc.outq = v :: q →
      perform (.pop .enc) s = .next
        { s with enc := { s.enc with outq := q }
                 host := { s.host with enc := { s.host.enc with popped := s.host.enc.popped ++ [v] } } })
      ∧ (s.dec.outq = v :: q →
        perform (.pop .dec) s = .next
          { s with dec := { s.dec with outq := q }
                   host := { s.host with dec := { s.host.dec with popped := s.host.dec.popped ++ [v] } } })

/-- R27, R49, R192. Reading idle gives whether the queue is empty, and has no side effect on the block; it completes; the idle
output at the ports says the same, values in the pipeline counted. That the host's record keeps what was read, and that a read
before the first reset is refused, are the model's own (log entries 7 and 5). -/
def Obligations.IdleReadHasNoSideEffect : Prop :=
  (∀ (s : State) (p : Port), s.wasReset = true →
    ∃ t, perform (.readIdle p) s = .next t ∧ t.enc = s.enc ∧ t.dec = s.dec ∧ t.wasReset = s.wasReset
      ∧ t.host.script = s.host.script
      ∧ (t.record p).idleReads = (s.record p).idleReads ++ [decide (outq p s = [])]
      ∧ (t.record p).popped = (s.record p).popped ∧ (t.record p).bounds = (s.record p).bounds
      ∧ ∀ p', p' ≠ p → t.record p' = s.record p')
    ∧ (∀ (s : State) (p : Port), s.wasReset = false → perform (.readIdle p) s = .refused .beforeReset)
    ∧ ∀ (i : PortIn) (ps : PortState) (p : Port), i.rst = false → ps.core.wasReset = true →
      ((unitOut p i ps).idle = true ↔ outq p ps.core = [])

/-- R69, R70. A transaction is enabled exactly when the rule says so, with the depth as the rule writes it. -/
def Obligations.EnabledExactlyWhenRoom : Prop :=
  ∀ (s : State) (w : CmdWord), s.wasReset = true →
    (enabled (.cmd .enc w) s = true ↔ s.enc.outq.length ≤ Config.encOutDepth - 3)
      ∧ (enabled (.cmd .dec w) s = true ↔ s.dec.outq.length ≤ Config.decOutDepth - 1)
      ∧ (enabled (.pop .enc) s = true ↔ s.enc.outq ≠ []) ∧ (enabled (.pop .dec) s = true ↔ s.dec.outq ≠ [])
      ∧ 3 ≤ Config.encOutDepth ∧ 1 ≤ Config.decOutDepth

/-- R189. A transaction that is not enabled stays stuck: a command without room is not accepted and changes nothing; however
many steps are run, nothing changes and the transaction stays next. That it waits so in the script is the model's own
(log entry 4). -/
def Obligations.DisabledTransactionStaysStuck : Prop :=
  ∀ (s : State) (m : Move) (rest : List Move) (n : Nat), s.host.script = m :: rest → s.wasReset = true →
    enabled m s = false → perform m s = .next s ∧ core.run n s = .next s

/-- R50, R189. First in, first out, and nothing is lost: whatever enabled transaction but reset happens, the values popped
followed by the values queued, on each unit, are those before it followed by the newly appended ones. -/
def Obligations.OutputsAreFirstInFirstOut : Prop :=
  ∀ (s t : State) (m : Move) (p : Port), m ≠ .reset → enabled m s = true → perform m s = .next t →
    ∃ vs, (t.record p).popped ++ outq p t = (s.record p).popped ++ outq p s ++ vs

/-- R29. The units share no mutable state: a transaction of one unit does to that unit, and to what the host sees of it,
the same whatever the other unit holds, and leaves the other unit as it was. -/
def Obligations.UnitsShareNoState : Prop :=
  ∀ (s₁ s₂ t₁ : State) (m : Move), s₁.wasReset = s₂.wasReset → perform m s₁ = .next t₁ →
    (m.port = some .enc → s₁.enc = s₂.enc → s₁.host.enc = s₂.host.enc →
      ∃ t₂, perform m s₂ = .next t₂ ∧ t₂.enc = t₁.enc ∧ t₂.host.enc = t₁.host.enc
        ∧ t₁.dec = s₁.dec ∧ t₁.host.dec = s₁.host.dec ∧ t₂.dec = s₂.dec ∧ t₂.host.dec = s₂.host.dec)
      ∧ (m.port = some .dec → s₁.dec = s₂.dec → s₁.host.dec = s₂.host.dec →
        ∃ t₂, perform m s₂ = .next t₂ ∧ t₂.dec = t₁.dec ∧ t₂.host.dec = t₁.host.dec
          ∧ t₁.enc = s₁.enc ∧ t₁.host.enc = s₁.host.enc ∧ t₂.enc = s₂.enc ∧ t₂.host.enc = s₂.host.enc)

/-- R51. Every interleaving gives each unit the same: what a run does to a unit, and what the host sees of it, is what the
unit's own transactions (and the resets) do alone. -/
def Obligations.InterleavingDoesNotMatter : Prop :=
  ∀ (s t : State) (ms : List Move), runMoves ms s = some t →
    (∃ u, runMoves (movesOf .enc ms) s = some u ∧ u.enc = t.enc ∧ u.host.enc = t.host.enc)
      ∧ ∃ u, runMoves (movesOf .dec ms) s = some u ∧ u.dec = t.dec ∧ u.host.dec = t.host.dec

/-- R165. Two transfers that are both enabled, of different kinds on one unit or of any kind on different units, give the
same result in either order. -/
def Obligations.SimultaneousTransfersCommute : Prop :=
  ∀ (s : State) (m n : Move), enabled m s = true → enabled n s = true →
    (m.port = some .enc ∧ n.port = some .dec ∨ ∃ p w, m = .pop p ∧ n = .cmd p w) →
    runMoves [m, n] s = runMoves [n, m] s

/-! ## Reset, invariants and safety -/

/-- R181, R187. Reset, from every state, power-on included: every field of the block takes its reset value and both units are
idle; what the host has popped stays popped. It completes. The call ends it leaves in the host's record are the model's own
(log entry 7). -/
def Obligations.ResetSetsEveryField : Prop :=
  ∀ s : State, ∃ t, perform .reset s = .next t
    ∧ t.enc = { phase := 0, res := 0, outq := [] } ∧ t.dec = { phase := 0, res := 0, outq := [] }
    ∧ t.wasReset = true ∧ idle .enc t = true ∧ idle .dec t = true
    ∧ t.host.script = s.host.script
    ∧ ∀ p, (t.record p).popped = (s.record p).popped ∧ (t.record p).idleReads = (s.record p).idleReads

/-- R30. The state after reset. That the host's script and record are empty in it is the model's own (log entries 1, 7). -/
def Obligations.ResetStateHoldsResetValues : Prop :=
  State.reset.enc = { phase := 0, res := 0, outq := [] } ∧ State.reset.dec = { phase := 0, res := 0, outq := [] }
    ∧ State.reset.wasReset = true ∧ idle .enc State.reset = true ∧ idle .dec State.reset = true
    ∧ State.reset.host.script = []

/-- R31, R184. Before the first reset every command and every pop is refused, whatever the state holds; and right after a reset
the host may begin a call on either unit at once. The flag that says whether there was a reset is the model's own (log
entry 5). -/
def Obligations.NothingHappensBeforeReset : Prop :=
  (∀ (s : State) (p : Port) (w : CmdWord), s.wasReset = false →
    perform (.cmd p w) s = .refused .beforeReset ∧ perform (.pop p) s = .refused .beforeReset)
    ∧ ∀ (s : State) (p : Port), ∃ t, perform .reset s = .next t ∧ cmdReady p t = true

/-- R20 to R26. Every step keeps the invariant: after a reset the phases and residues are legal, no queue holds more than its
capacity, and the host's record is in order. -/
def Obligations.StepKeepsInv : Prop :=
  ∀ s t : State, s.Inv → step s = .next t → t.Inv

/-- The invariant holds right after reset, and at power-on. -/
def Obligations.InvAtReset : Prop :=
  State.reset.Inv ∧ State.powerOn.Inv

/-- R65, R110. Every step keeps this: every value queued in the encoder is a symbol code or `PAD_CODE`. -/
def Obligations.StepKeepsEncoderOutputCodes : Prop :=
  State.reset.encOutputsLegal ∧ ∀ s t : State, s.encOutputsLegal → step s = .next t → t.encOutputsLegal

/-- After reset nothing faults and nothing is refused: in every legal state every command answers a next state, and so does
every step, whatever the host's script. For commands that are accepted this is what R160, R107 and R137 say. That exec answers a
next state for a command without room too, where the rules give no step, is the model's own (log entry 4, DEDUCED), and the script
that a step performs is the model's own (log entry 1). -/
def Obligations.NothingFaultsAfterReset : Prop :=
  ∀ s : State, s.Inv → s.wasReset = true → (∀ i : Instr, ∃ t, exec i s = .next t) ∧ safeStep s

/-! ## Complete calls -/

/-- R52, R186, R193. When the last `END` of a run of encoder calls has been accepted and idle reads 1, every call is complete,
and the values of the calls, as the host observed them, are `ENCODE` of their inputs. -/
def Obligations.CompleteEncoderCallsObserved : Prop :=
  ∀ (s t : State) (ms : List Move) (Bs : List (List Byte)), runMoves ms s = some t → Move.reset ∉ ms →
    s.enc.betweenCalls → s.enc.outq = [] → s.host.enc.popped = [] → s.host.enc.bounds = [] →
    commandsOn .enc ms = Bs.flatMap (fun B => B.map .encData ++ [.encEnd]) → idle .enc t = true →
    t.host.enc.completeCalls = Bs.map refEncode

/-- R52, R186, R193. The same for the decoder and `DECODE`. -/
def Obligations.CompleteDecoderCallsObserved : Prop :=
  ∀ (s t : State) (ms : List Move) (Ts : List (List Byte)), runMoves ms s = some t → Move.reset ∉ ms →
    s.dec.betweenCalls → s.dec.outq = [] → s.host.dec.popped = [] → s.host.dec.bounds = [] →
    commandsOn .dec ms = Ts.flatMap (fun T => T.map .decData ++ [.decEnd]) → idle .dec t = true →
    t.host.dec.completeCalls = Ts.map refDecode

/-! ## The port level -/

/-- R67, R165. An edge without reset does to the block exactly what its transfers do as transactions, each enabled when it
happens, in whatever order they are taken. -/
def Obligations.EdgeIsItsTransactions : Prop :=
  ∀ (i : PortIn) (ps qs : PortState), ps.core.wasReset = true → i.rst = false → edge i ps = .next qs →
    ∀ ms : List Move, ms.Perm (edgeMoves i ps) → runMoves ms ps.core = some qs.core

/-- R164, R181, R182. At an edge with `rst = 1` there is no transfer, whatever the other signals; the block is reset and an
offered command counts as not accepted; while `rst = 1` ready and out_valid are 0, and at the first edge after it both idle
outputs are 1. That the edge is not refused when the host withdraws or changes a held command at it, and that it clears the
offer, is the model's choice (log entry 19). -/
def Obligations.ResetWinsOverTransfers : Prop :=
  ∀ (i : PortIn) (ps : PortState), i.rst = true →
    (∀ p, (unitOut p i ps).cmdReady = false ∧ (unitOut p i ps).outValid = false
        ∧ cmdTransfer p i ps = false ∧ outTransfer p i ps = false)
      ∧ ∃ qs, edge i ps = .next qs ∧ qs.core = resetBlock ps.core ∧ qs.enc.offer = none ∧ qs.dec.offer = none
        ∧ ∀ (p : Port) (j : PortIn), j.rst = false → (unitOut p j qs).idle = true

/-- A host that drops or changes an offered command before its transfer, at an edge without reset, is refused (R68, R171); and
after the first reset, in a legal state, no other edge without reset is. A `cmd_valid` that depends combinationally on
`cmd_ready`, which R68 and R171 count as a broken duty too, cannot be seen in one edge and is not refused (log entry 14,
DEDUCED); that the duty is not asked at an edge with reset is the model's choice (log entry 19). -/
def Obligations.OnlyBrokenDutyIsRefused : Prop :=
  ∀ (i : PortIn) (ps : PortState), ps.core.wasReset = true → i.rst = false →
    ((∃ p w, (ps.timing p).offer = some w ∧ ¬ ((i.unit p).cmdValid = true ∧ (i.unit p).cmdData = w)) →
      edge i ps = .refused .hostProtocol)
      ∧ (ps.core.Inv → (∀ p w, (ps.timing p).offer = some w → (i.unit p).cmdValid = true ∧ (i.unit p).cmdData = w) →
        ∃ qs, edge i ps = .next qs)

/-- R68, R70. The unit's duty on an output port: an offered value stays offered, unchanged, until its transfer or a reset. -/
def Obligations.OfferedOutputIsHeld : Prop :=
  ∀ (i j : PortIn) (ps qs : PortState) (p : Port), ps.core.wasReset = true → i.rst = false → j.rst = false →
    (unitOut p i ps).outValid = true → (i.unit p).outReady = false → edge i ps = .next qs →
    (unitOut p j qs).outValid = true ∧ (unitOut p j qs).outData = (unitOut p i ps).outData

/-- R69, R70. Every edge keeps the port level's invariant: one waiting time for each queued value, none longer than
`LATENCY`, in order. -/
def Obligations.EdgeKeepsPortInv : Prop :=
  ∀ (i : PortIn) (ps qs : PortState), ps.Inv → edge i ps = .next qs → qs.Inv

/-- R70. After `LATENCY` edges without reset at which the host takes nothing from the unit, the head of a queue that was not
empty is offered. -/
def Obligations.OutputIsOfferedAfterLatency : Prop :=
  ∀ (is : List PortIn) (ps qs : PortState) (p : Port), ps.Inv → ps.core.wasReset = true → outq p ps.core ≠ [] →
    (∀ i ∈ is, i.rst = false ∧ (i.unit p).outReady = false) → Config.latency ≤ is.length →
    runEdges is ps = .next qs → headVisible p qs = true

/-- R69, R183, R191. Liveness: while `rst = 0` and there is room, a unit becomes ready for a command within finitely many
edges, unless it has accepted one before. -/
def Obligations.ReadyWithinFinitelyManyEdges : Prop :=
  ∀ (ps : PortState) (p : Port), cmdReady p ps.core = true →
    ∃ n, ∀ (is : List PortIn) (qs : PortState), is.length = n → (∀ i ∈ is, i.rst = false) →
      runEdges is ps = .next qs →
      unitReady p qs = true
        ∨ ∃ k i rs, is[k]? = some i ∧ runEdges (is.take k) ps = .next rs ∧ cmdTransfer p i rs = true

/-! ## When a call is complete -/

/-- R193. A call is complete exactly when its `END` has been accepted and every value it appended has been popped: after the
encoder calls for `Bs` and the beginning `C` of another, the complete calls are those of `Bs` that appended nothing or whose last
value has been popped, and the call in progress is not among them. The record is the model's own (log entry 7). -/
def Obligations.EncoderCallsCompleteWhenDelivered : Prop :=
  ∀ (s t : State) (ms : List Move) (Bs : List (List Byte)) (C : List Byte), runMoves ms s = some t → Move.reset ∉ ms →
    s.enc.betweenCalls → s.enc.outq = [] → s.host.enc.popped = [] → s.host.enc.bounds = [] →
    commandsOn .enc ms = Bs.flatMap (fun B => B.map .encData ++ [.encEnd]) ++ C.map .encData →
    t.host.enc.completeCalls = (Bs.zipIdx.filter fun Bk => refEncode Bk.1 = []
      ∨ ((Bs.take (Bk.2 + 1)).flatMap refEncode).length ≤ t.host.enc.popped.length).map fun Bk => refEncode Bk.1

/-- R193. The same for the decoder, where a call such as "T" appends nothing although it has input. -/
def Obligations.DecoderCallsCompleteWhenDelivered : Prop :=
  ∀ (s t : State) (ms : List Move) (Ts : List (List Byte)) (C : List Byte), runMoves ms s = some t → Move.reset ∉ ms →
    s.dec.betweenCalls → s.dec.outq = [] → s.host.dec.popped = [] → s.host.dec.bounds = [] →
    commandsOn .dec ms = Ts.flatMap (fun T => T.map .decData ++ [.decEnd]) ++ C.map .decData →
    t.host.dec.completeCalls = (Ts.zipIdx.filter fun Tk => refDecode Tk.1 = []
      ∨ ((Ts.take (Tk.2 + 1)).flatMap refDecode).length ≤ t.host.dec.popped.length).map fun Tk => refDecode Tk.1

/-- R181, R187, R193. A reset makes no complete call incomplete and no incomplete call complete, and leaves the values of the
complete calls as they were. The record is the model's own (log entry 7). -/
def Obligations.ResetKeepsCompleteCalls : Prop :=
  ∀ (s t : State) (p : Port), s.Inv → perform .reset s = .next t → (t.record p).completeCalls = (s.record p).completeCalls
end

