-- ==== Sys2Proof/Laws/State.lean ====
section
/-! SUPPORT. One lemma per field per update of the state and its parts, so that no later proof unfolds a record update. -/

namespace Sys2Proof.Machine

open Sys2Proof


@[simp] theorem EncState.push_phase (e : EncState) (vs : List Byte) : (e.push vs).phase = e.phase := rfl
@[simp] theorem EncState.push_res (e : EncState) (vs : List Byte) : (e.push vs).res = e.res := rfl
@[simp] theorem EncState.push_outq (e : EncState) (vs : List Byte) : (e.push vs).outq = e.outq ++ vs := rfl

@[simp] theorem EncState.reset_phase : (EncState.reset).phase = 0 := rfl
@[simp] theorem EncState.reset_res : (EncState.reset).res = 0 := rfl
@[simp] theorem EncState.reset_outq : (EncState.reset).outq = [] := rfl

@[simp] theorem DecState.push_phase (d : DecState) (vs : List Byte) : (d.push vs).phase = d.phase := rfl
@[simp] theorem DecState.push_res (d : DecState) (vs : List Byte) : (d.push vs).res = d.res := rfl
@[simp] theorem DecState.push_outq (d : DecState) (vs : List Byte) : (d.push vs).outq = d.outq ++ vs := rfl

@[simp] theorem DecState.reset_phase : (DecState.reset).phase = 0 := rfl
@[simp] theorem DecState.reset_res : (DecState.reset).res = 0 := rfl
@[simp] theorem DecState.reset_outq : (DecState.reset).outq = [] := rfl

@[simp] theorem State.setEnc_enc (s : State) (e : EncState) : (s.setEnc e).enc = e := rfl
@[simp] theorem State.setEnc_dec (s : State) (e : EncState) : (s.setEnc e).dec = s.dec := rfl
@[simp] theorem State.setEnc_wasReset (s : State) (e : EncState) : (s.setEnc e).wasReset = s.wasReset := rfl
@[simp] theorem State.setEnc_host (s : State) (e : EncState) : (s.setEnc e).host = s.host := rfl

@[simp] theorem State.setDec_enc (s : State) (d : DecState) : (s.setDec d).enc = s.enc := rfl
@[simp] theorem State.setDec_dec (s : State) (d : DecState) : (s.setDec d).dec = d := rfl
@[simp] theorem State.setDec_wasReset (s : State) (d : DecState) : (s.setDec d).wasReset = s.wasReset := rfl
@[simp] theorem State.setDec_host (s : State) (d : DecState) : (s.setDec d).host = s.host := rfl

@[simp] theorem State.setScript_enc (s : State) (ms : List Move) : (s.setScript ms).enc = s.enc := rfl
@[simp] theorem State.setScript_dec (s : State) (ms : List Move) : (s.setScript ms).dec = s.dec := rfl
@[simp] theorem State.setScript_wasReset (s : State) (ms : List Move) : (s.setScript ms).wasReset = s.wasReset := rfl
@[simp] theorem State.setScript_host_script (s : State) (ms : List Move) : (s.setScript ms).host.script = ms := rfl
@[simp] theorem State.setScript_host_enc (s : State) (ms : List Move) : (s.setScript ms).host.enc = s.host.enc := rfl
@[simp] theorem State.setScript_host_dec (s : State) (ms : List Move) : (s.setScript ms).host.dec = s.host.dec := rfl

@[simp] theorem State.setRecord_enc (s : State) (p : Port) (r : Record) : (s.setRecord p r).enc = s.enc := by cases p <;> rfl
@[simp] theorem State.setRecord_dec (s : State) (p : Port) (r : Record) : (s.setRecord p r).dec = s.dec := by cases p <;> rfl
@[simp] theorem State.setRecord_wasReset (s : State) (p : Port) (r : Record) : (s.setRecord p r).wasReset = s.wasReset := by cases p <;> rfl
@[simp] theorem State.setRecord_host_script (s : State) (p : Port) (r : Record) : (s.setRecord p r).host.script = s.host.script := by cases p <;> rfl
@[simp] theorem State.setRecord_enc_host_enc (s : State) (r : Record) : (s.setRecord .enc r).host.enc = r := rfl
@[simp] theorem State.setRecord_enc_host_dec (s : State) (r : Record) : (s.setRecord .enc r).host.dec = s.host.dec := rfl
@[simp] theorem State.setRecord_dec_host_dec (s : State) (r : Record) : (s.setRecord .dec r).host.dec = r := rfl
@[simp] theorem State.setRecord_dec_host_enc (s : State) (r : Record) : (s.setRecord .dec r).host.enc = s.host.enc := rfl
@[simp] theorem State.record_setRecord (s : State) (p : Port) (r : Record) : (s.setRecord p r).record p = r := by cases p <;> rfl

theorem State.record_setRecord_of_ne (s : State) (r : Record) {p q : Port} (h : q ≠ p) :
    (s.setRecord p r).record q = s.record q := by cases p <;> cases q <;> simp_all [State.record]

@[simp] theorem State.record_enc (s : State) : s.record .enc = s.host.enc := rfl
@[simp] theorem State.record_dec (s : State) : s.record .dec = s.host.dec := rfl
@[simp] theorem State.record_setEnc (s : State) (e : EncState) (p : Port) : (s.setEnc e).record p = s.record p := by cases p <;> rfl
@[simp] theorem State.record_setDec (s : State) (d : DecState) (p : Port) : (s.setDec d).record p = s.record p := by cases p <;> rfl
@[simp] theorem State.record_setScript (s : State) (ms : List Move) (p : Port) : (s.setScript ms).record p = s.record p := by cases p <;> rfl

@[simp] theorem Record.deliver_popped (r : Record) (v : Byte) : (r.deliver v).popped = r.popped ++ [v] := rfl
@[simp] theorem Record.deliver_bounds (r : Record) (v : Byte) : (r.deliver v).bounds = r.bounds := rfl
@[simp] theorem Record.deliver_idleReads (r : Record) (v : Byte) : (r.deliver v).idleReads = r.idleReads := rfl

@[simp] theorem Record.sawIdle_popped (r : Record) (b : Bool) : (r.sawIdle b).popped = r.popped := rfl
@[simp] theorem Record.sawIdle_bounds (r : Record) (b : Bool) : (r.sawIdle b).bounds = r.bounds := rfl
@[simp] theorem Record.sawIdle_idleReads (r : Record) (b : Bool) : (r.sawIdle b).idleReads = r.idleReads ++ [b] := rfl

@[simp] theorem Record.close_popped (r : Record) (n : Nat) : (r.close n).popped = r.popped := rfl
@[simp] theorem Record.close_bounds (r : Record) (n : Nat) : (r.close n).bounds = r.bounds ++ [⟨.ended, r.popped.length + n⟩] := rfl
@[simp] theorem Record.close_idleReads (r : Record) (n : Nat) : (r.close n).idleReads = r.idleReads := rfl

@[simp] theorem Boundary.cutAt_pos (n start : Nat) (b : Boundary) : (b.cutAt n start).pos = min b.pos n := rfl
@[simp] theorem cutBounds_nil (n start : Nat) : cutBounds n start [] = [] := rfl
@[simp] theorem cutBounds_cons (n start : Nat) (b : Boundary) (bs : List Boundary) :
    cutBounds n start (b :: bs) = b.cutAt n start :: cutBounds n b.pos bs := rfl
@[simp] theorem Record.abandon_bounds (r : Record) :
    (r.abandon).bounds = cutBounds r.popped.length 0 r.bounds ++ [⟨.abandoned, r.popped.length⟩] := rfl
@[simp] theorem Record.abandon_popped (r : Record) : (r.abandon).popped = r.popped := rfl
@[simp] theorem Record.abandon_idleReads (r : Record) : (r.abandon).idleReads = r.idleReads := rfl

@[simp] theorem resetBlock_enc (s : State) : (resetBlock s).enc = EncState.reset := rfl
@[simp] theorem resetBlock_dec (s : State) : (resetBlock s).dec = DecState.reset := rfl
@[simp] theorem resetBlock_wasReset (s : State) : (resetBlock s).wasReset = true := rfl
@[simp] theorem resetBlock_host_script (s : State) : (resetBlock s).host.script = s.host.script := rfl
@[simp] theorem resetBlock_host_enc (s : State) : (resetBlock s).host.enc = s.host.enc.abandon := rfl
@[simp] theorem resetBlock_host_dec (s : State) : (resetBlock s).host.dec = s.host.dec.abandon := rfl

@[simp] theorem State.reset_enc : (State.reset).enc = EncState.reset := rfl
@[simp] theorem State.reset_dec : (State.reset).dec = DecState.reset := rfl
@[simp] theorem State.reset_wasReset : (State.reset).wasReset = true := rfl
@[simp] theorem State.reset_host_script : (State.reset).host.script = [] := rfl
@[simp] theorem State.reset_host_enc : (State.reset).host.enc = Record.empty := rfl
@[simp] theorem State.reset_host_dec : (State.reset).host.dec = Record.empty := rfl

@[simp] theorem outq_enc (s : State) : outq .enc s = s.enc.outq := rfl
@[simp] theorem outq_dec (s : State) : outq .dec s = s.dec.outq := rfl
@[simp] theorem outq_setRecord (s : State) (p q : Port) (r : Record) : outq p (s.setRecord q r) = outq p s := by cases p <;> cases q <;> rfl
@[simp] theorem outq_setScript (s : State) (p : Port) (ms : List Move) : outq p (s.setScript ms) = outq p s := by cases p <;> rfl
@[simp] theorem outDepth_enc : Config.outDepth .enc = Config.encOutDepth := rfl
@[simp] theorem outDepth_dec : Config.outDepth .dec = Config.decOutDepth := rfl
@[simp] theorem mostOutputs_enc : Config.mostOutputs .enc = 3 := rfl
@[simp] theorem mostOutputs_dec : Config.mostOutputs .dec = 1 := rfl

/-! Updates of different parts commute. -/

@[simp] theorem State.setScript_setScript (s : State) (a b : List Move) : (s.setScript a).setScript b = s.setScript b := rfl
@[simp] theorem State.setScript_setEnc (s : State) (e : EncState) (ms : List Move) : (s.setScript ms).setEnc e = (s.setEnc e).setScript ms := rfl
@[simp] theorem State.setScript_setDec (s : State) (d : DecState) (ms : List Move) : (s.setScript ms).setDec d = (s.setDec d).setScript ms := rfl
@[simp] theorem State.setScript_setRecord (s : State) (p : Port) (r : Record) (ms : List Move) : (s.setScript ms).setRecord p r = (s.setRecord p r).setScript ms := by cases p <;> rfl
@[simp] theorem State.setScript_resetBlock (s : State) (ms : List Move) : resetBlock (s.setScript ms) = (resetBlock s).setScript ms := rfl
@[simp] theorem State.setScript_self (s : State) : s.setScript s.host.script = s := rfl

end Sys2Proof.Machine
end

