-- ==== Sys2Proof/Laws/Stream.lean ====
section
/-! SUPPORT. Bit sequences and windows (00_scope.md R9): values of concatenations, windows of concatenations. -/

namespace Sys2Proof.Machine

open Sys2Proof

@[simp] theorem bitsOf_length {n : Nat} (v : BitVec n) : (bitsOf v).length = n := by simp [bitsOf]

theorem bitsOf_getElem {n : Nat} (v : BitVec n) (i : Nat) (h : i < (bitsOf v).length) :
    (bitsOf v)[i] = v.getMsbD i := by simp [bitsOf]

/-- The bits of a value are those of its upper slice followed by those of its lower slice. -/
theorem bitsOf_split {n m : Nat} (x : BitVec (n + m)) :
    bitsOf x = bitsOf (x.extractLsb' m n) ++ bitsOf (x.extractLsb' 0 m) := by
  apply List.ext_getElem (by simp)
  intro i h₁ _
  have hi : i < n + m := by simpa using h₁
  rw [bitsOf_getElem, List.getElem_append]
  split <;> rename_i h <;> rw [bitsOf_getElem]
  · have hn : i < n := by simpa using h
    simp only [BitVec.getMsbD_eq_getLsbD, BitVec.getLsbD_extractLsb', hi, hn, decide_true, Bool.true_and]
    rw [show m + (n - 1 - i) = n + m - 1 - i by omega]
    simp [show n - 1 - i < n by omega]
  · have hn : n ≤ i := by simpa using h
    have hm : i - n < m := by omega
    simp only [bitsOf_length, BitVec.getMsbD_eq_getLsbD, BitVec.getLsbD_extractLsb', hi, hm, decide_true, Bool.true_and]
    rw [show 0 + (m - 1 - (i - n)) = n + m - 1 - i by omega]
    simp [show m - 1 - (i - n) < m by omega]

/-- The bits of a concatenation. -/
theorem bitsOf_append {n m : Nat} (a : BitVec n) (b : BitVec m) : bitsOf (a ++ b) = bitsOf a ++ bitsOf b := by
  rw [bitsOf_split (a ++ b)]
  congr 2
  · apply BitVec.eq_of_getLsbD_eq
    intro i hi
    simp [BitVec.getLsbD_append, hi]
  · apply BitVec.eq_of_getLsbD_eq
    intro i hi
    simp [BitVec.getLsbD_append, hi]

theorem valOf_foldl (bs : List Bool) (a : Nat) :
    bs.foldl (fun a b => 2 * a + b.toNat) a = a * 2 ^ bs.length + valOf bs := by
  induction bs generalizing a with
  | nil => simp [valOf]
  | cons b bs ih =>
    simp only [List.foldl_cons, List.length_cons, valOf, Nat.mul_zero, Nat.zero_add]
    rw [ih, ih b.toNat]
    ring

/-- The value of a concatenation. -/
theorem valOf_append (a b : List Bool) : valOf (a ++ b) = valOf a * 2 ^ b.length + valOf b := by
  rw [valOf, List.foldl_append, valOf_foldl]
  rfl

/-- `VAL` undoes `BITS_n`. -/
@[simp] theorem valOf_bitsOf {n : Nat} (v : BitVec n) : valOf (bitsOf v) = v.toNat := by
  induction n with
  | zero => simp [bitsOf, valOf, BitVec.eq_nil v]
  | succ n ih =>
    rw [bitsOf_split v, valOf_append, ih]
    have : valOf (bitsOf (v.extractLsb' 0 1)) = v.toNat % 2 := by
      simp [bitsOf, valOf, BitVec.getMsbD_eq_getLsbD, BitVec.getLsbD, Nat.testBit_zero]
      rcases Nat.mod_two_eq_zero_or_one v.toNat with h | h <;> simp [h]
    rw [this]
    have hv := v.isLt
    simp only [BitVec.extractLsb'_toNat, bitsOf_length, Nat.shiftRight_eq_div_pow, pow_one]
    rw [Nat.mod_eq_of_lt (by omega)]
    omega

@[simp] theorem byteOf_bitsOf (v : Byte) : byteOf (bitsOf v) = v := by simp [byteOf]

@[simp] theorem sextetOf_bitsOf (v : Sextet) : sextetOf (bitsOf v) = v := by simp [sextetOf]

@[simp] theorem byteStream_nil : byteStream [] = [] := rfl

@[simp] theorem byteStream_cons (b : Byte) (B : List Byte) : byteStream (b :: B) = bitsOf b ++ byteStream B := rfl

@[simp] theorem byteStream_append (B C : List Byte) : byteStream (B ++ C) = byteStream B ++ byteStream C := by
  simp [byteStream]

@[simp] theorem byteStream_length (B : List Byte) : (byteStream B).length = 8 * B.length := by
  induction B with
  | nil => rfl
  | cons b B ih => simp [ih]; omega

@[simp] theorem sextetStream_nil : sextetStream [] = [] := rfl

@[simp] theorem sextetStream_cons (v : Sextet) (F : List Sextet) :
    sextetStream (v :: F) = bitsOf v ++ sextetStream F := rfl

@[simp] theorem sextetStream_append (F G : List Sextet) :
    sextetStream (F ++ G) = sextetStream F ++ sextetStream G := by simp [sextetStream]

@[simp] theorem sextetStream_length (F : List Sextet) : (sextetStream F).length = 6 * F.length := by
  induction F with
  | nil => rfl
  | cons b B ih => simp [ih]; omega

/-- The values of the full `k`-bit windows of a bit stream, in order. -/
def windows {α : Type} (k : Nat) (f : List Bool → α) (S : List Bool) : List α :=
  (List.range (S.length / k)).map fun j => f (sliceOf S (k * j) (k * j + k))

theorem windows_short {α : Type} {k : Nat} {f : List Bool → α} {S : List Bool} (h : S.length < k) :
    windows k f S = [] := by simp [windows, Nat.div_eq_of_lt h]

theorem windows_one {α : Type} {k : Nat} {f : List Bool → α} {S : List Bool} (h : S.length = k) (hk : 0 < k) :
    windows k f S = [f S] := by
  simp [windows, h, Nat.div_self hk, sliceOf, List.take_of_length_le]

/-- Windows of a concatenation whose first part is a whole number of windows. -/
theorem windows_append {α : Type} {k : Nat} {f : List Bool → α} {W X : List Bool} (hk : 0 < k)
    (h : k ∣ W.length) : windows k f (W ++ X) = windows k f W ++ windows k f X := by
  obtain ⟨n, hn⟩ := h
  simp only [windows, List.length_append, hn, Nat.mul_add_div hk, Nat.mul_div_cancel_left _ hk, List.range_add,
    List.map_append, List.map_map]
  congr 1
  · apply List.map_congr_left
    intro j hj
    have hj : j < n := by simpa using hj
    have : k * j + k ≤ k * n := by nlinarith
    simp only [sliceOf, Nat.add_sub_cancel_left]
    rw [List.drop_append_of_le_length (by omega), List.take_append_of_le_length (by simp; omega)]
  · apply List.map_congr_left
    intro j _
    simp only [Function.comp, sliceOf, Nat.add_sub_cancel_left]
    congr 2
    rw [show k * (n + j) = W.length + k * j by rw [hn]; ring, List.drop_append]
    simp

theorem windows_length {α : Type} (k : Nat) (f : List Bool → α) (S : List Bool) :
    (windows k f S).length = S.length / k := by simp [windows]

theorem symbolAt_windows (S : List Bool) :
    (List.range (S.length / 6)).map (symbolAt S) = windows 6 (fun w => symbolOf (sextetOf w)) S := rfl

theorem byteAt_windows (S : List Bool) : (List.range (S.length / 8)).map (byteAt S) = windows 8 byteOf S := rfl

/-- `ENCODE` as the full windows of the stream, the last one filled with zero bits if it is not full, and the padding. -/
theorem refEncode_eq (B : List Byte) :
    refEncode B =
      windows 6 (fun w => symbolOf (sextetOf w)) (byteStream B)
        ++ (if B.length % 3 = 0 then []
            else [symbolOf (sextetOf ((byteStream B).drop (6 * (8 * B.length / 6))))])
        ++ List.replicate ((3 - B.length % 3) % 3) Config.padCode := by
  rw [← symbolAt_windows]
  simp only [refEncode, ceilDiv, byteStream_length]
  split
  · rename_i h; simp [h]
  · rename_i h
    have h3 : B.length % 3 < 3 := Nat.mod_lt _ (by omega)
    split
    · rename_i h0
      rw [show (8 * B.length + 6 - 1) / 6 = 8 * B.length / 6 by omega,
        show (4 - 8 * B.length / 6 % 4) % 4 = (3 - B.length % 3) % 3 by omega]
      simp
    · rename_i h0
      obtain ⟨hK, hP⟩ : (8 * B.length + 6 - 1) / 6 = 8 * B.length / 6 + 1
          ∧ (4 - (8 * B.length / 6 + 1) % 4) % 4 = (3 - B.length % 3) % 3 := by
        have hN : B.length = 3 * (B.length / 3) + B.length % 3 := by omega
        generalize B.length / 3 = q at hN
        rcases (by omega : B.length % 3 = 1 ∨ B.length % 3 = 2) with h | h <;>
          rw [h] at hN ⊢ <;> rw [hN] <;> omega
      rw [hK, hP, List.range_succ, List.map_append]
      congr 2
      simp only [List.map_cons, List.map_nil, symbolAt, sliceOf, Nat.add_sub_cancel_left]
      rw [List.take_of_length_le]
      simp
      omega

theorem refDecode_eq (T : List Byte) : refDecode T = windows 8 byteOf (sextetStream (surviving T)) := by
  rw [← byteAt_windows]
  simp [refDecode]

end Sys2Proof.Machine
end

