-- ==== Sys2Proof/Laws/Encoder.lean ====
section
/-! SUPPORT. What the encoder's commands do to its bit stream: each moves whole 6-bit windows from the pending bits to the
output queue (41_encoder.md R103, R104, R106). -/

namespace Sys2Proof.Machine

open Sys2Proof

theorem phase_cases (q : BitVec 2) : q = 0 ∨ q = 1 ∨ q = 2 ∨ q = 3 := by
  revert q; decide

/-- The bits received and not yet emitted, in stream order (10_state.md R22). -/
def encPending (e : EncState) : List Bool := bitsOf (e.res.extractLsb' 0 (encWidth e.phase))

/-- The symbols of the full windows of a bit stream. -/
def encWindows (W : List Bool) : List Byte := windows 6 (fun w => symbolOf (sextetOf w)) W

@[simp] theorem encPending_length (e : EncState) : (encPending e).length = encWidth e.phase := by simp [encPending]

theorem encPending_betweenCalls {e : EncState} (h : e.betweenCalls) : encPending e = [] := by
  apply List.eq_nil_of_length_eq_zero
  simp [h.1, encWidth]

theorem encWindows_append {W X : List Bool} (h : 6 ∣ W.length) :
    encWindows (W ++ X) = encWindows W ++ encWindows X := windows_append (by omega) h

theorem encWindows_one (v : Sextet) : encWindows (bitsOf v) = [symbolOf v] := by
  simp [encWindows, windows_one]

theorem encDataUnit_zero (b : Byte) (r : BitVec 4) (o : List Byte) :
    encDataUnit b ⟨0, r, o⟩ = some ⟨1, (b.extractLsb' 0 2).setWidth 4, o ++ [symbolOf (b.extractLsb' 2 6)]⟩ := rfl

theorem encDataUnit_one (b : Byte) (r : BitVec 4) (o : List Byte) :
    encDataUnit b ⟨1, r, o⟩ =
      some ⟨2, (encJoin1 r b).extractLsb' 0 4, o ++ [symbolOf ((encJoin1 r b).extractLsb' 4 6)]⟩ := rfl

theorem encDataUnit_two (b : Byte) (r : BitVec 4) (o : List Byte) :
    encDataUnit b ⟨2, r, o⟩ =
      some ⟨0, 0, o ++ [symbolOf ((encJoin2 r b).extractLsb' 6 6), symbolOf ((encJoin2 r b).extractLsb' 0 6)]⟩ := rfl

theorem encEndUnit_zero (r : BitVec 4) (o : List Byte) : encEndUnit ⟨0, r, o⟩ = some ⟨0, 0, o⟩ := rfl

theorem encEndUnit_one (r : BitVec 4) (o : List Byte) :
    encEndUnit ⟨1, r, o⟩ = some ⟨0, 0, o ++ [symbolOf (encTail1 r), Config.padCode, Config.padCode]⟩ := rfl

theorem encEndUnit_two (r : BitVec 4) (o : List Byte) :
    encEndUnit ⟨2, r, o⟩ = some ⟨0, 0, o ++ [symbolOf (encTail2 r), Config.padCode]⟩ := rfl

theorem encPending_zero (r : BitVec 4) (o : List Byte) : encPending ⟨0, r, o⟩ = [] := rfl

theorem encPending_one (r : BitVec 4) (o : List Byte) : encPending ⟨1, r, o⟩ = bitsOf (r.extractLsb' 0 2) := rfl

theorem encPending_two (r : BitVec 4) (o : List Byte) : encPending ⟨2, r, o⟩ = bitsOf r := by
  revert r
  simp only [encPending]
  decide

/-- `ENC.DATA b` on a legal encoder appends the symbols of the windows it completes and keeps the rest pending. -/
theorem encDataUnit_spec (b : Byte) (e : EncState) (hp : e.phase ≠ 3) :
    ∃ e' W, encDataUnit b e = some e' ∧ e'.phase ≠ 3 ∧ e'.phase.toNat = (e.phase.toNat + 1) % 3
      ∧ e'.res.toNat < 2 ^ encWidth e'.phase
      ∧ encPending e ++ bitsOf b = W ++ encPending e' ∧ 6 ∣ W.length ∧ e'.outq = e.outq ++ encWindows W := by
  obtain ⟨q, r, o⟩ := e
  rcases phase_cases q with rfl | rfl | rfl | rfl
  · refine ⟨_, bitsOf (b.extractLsb' 2 6), encDataUnit_zero b r o, (by decide : (1 : BitVec 2) ≠ 3), rfl, ?_, ?_,
      by simp, by simp [encWindows_one]⟩
    · have := (b.extractLsb' 0 2).isLt
      simp only [BitVec.toNat_setWidth, encWidth]
      exact Nat.lt_of_le_of_lt (Nat.mod_le _ _) this
    · rw [encPending_zero, encPending_one, List.nil_append]
      refine (bitsOf_split (n := 6) (m := 2) b).trans ?_
      congr 2
      generalize b.extractLsb' 0 2 = x
      revert x; decide
  · refine ⟨_, bitsOf ((encJoin1 r b).extractLsb' 4 6), encDataUnit_one b r o, (by decide : (2 : BitVec 2) ≠ 3), rfl,
      BitVec.isLt _, ?_, by simp, by simp [encWindows_one]⟩
    rw [encPending_one, encPending_two, ← bitsOf_append]
    exact bitsOf_split (n := 6) (m := 4) (encJoin1 r b)
  · refine ⟨_, bitsOf ((encJoin2 r b).extractLsb' 6 6) ++ bitsOf ((encJoin2 r b).extractLsb' 0 6), encDataUnit_two b r o,
      (by decide : (0 : BitVec 2) ≠ 3),
      (by decide : (0 : BitVec 2).toNat = ((2 : BitVec 2).toNat + 1) % 3), (by decide : 0 < 1), ?_, by simp, by simp [encWindows_append, encWindows_one]⟩
    rw [encPending_two, encPending_zero, List.append_nil, ← bitsOf_append]
    exact bitsOf_split (n := 6) (m := 6) (encJoin2 r b)
  · exact absurd rfl hp

/-- The symbol and padding that `ENC.END` appends for the pending bits (R104). -/
def encTail (X : List Bool) : List Byte :=
  if X.length = 0 then [] else symbolOf (sextetOf X) :: List.replicate ((6 - X.length) / 2) Config.padCode

/-- `ENC.END` on a legal encoder appends the zero-filled last window and its padding. -/
theorem encEndUnit_spec (e : EncState) (hp : e.phase ≠ 3) :
    ∃ e', encEndUnit e = some e' ∧ e'.betweenCalls ∧ e'.outq = e.outq ++ encTail (encPending e) := by
  obtain ⟨q, r, o⟩ := e
  rcases phase_cases q with rfl | rfl | rfl | rfl
  · exact ⟨_, encEndUnit_zero r o, ⟨rfl, rfl⟩, by rw [encPending_zero]; simp [encTail]⟩
  · have h : sextetOf (bitsOf (r.extractLsb' 0 2)) = encTail1 r := by clear hp; revert r; decide
    exact ⟨_, encEndUnit_one r o, ⟨rfl, rfl⟩, by rw [encPending_one]; simp [encTail, h, List.replicate]⟩
  · have h : sextetOf (bitsOf r) = encTail2 r := by clear hp; revert r; decide
    exact ⟨_, encEndUnit_two r o, ⟨rfl, rfl⟩, by rw [encPending_two]; simp [encTail, h]⟩
  · exact absurd rfl hp

theorem encDataUnit_phase_ne {b : Byte} {e e' : EncState} (h : encDataUnit b e = some e') : e.phase ≠ 3 := fun hp => by
  simp [encDataUnit, hp] at h

theorem encEndUnit_phase_ne {e e' : EncState} (h : encEndUnit e = some e') : e.phase ≠ 3 := fun hp => by
  simp [encEndUnit, hp] at h

/-- A legal residue is the value of the pending bits. -/
theorem valOf_encPending {e : EncState} (h : e.res.toNat < 2 ^ encWidth e.phase) :
    valOf (encPending e) = e.res.toNat := by
  simp [encPending, Nat.mod_eq_of_lt h]

/-- A run of `ENC.DATA` commands on the unit: none when a phase has no case. -/
def encFeed : List Byte → EncState → Option EncState
  | [], e => some e
  | b :: B, e => (encDataUnit b e).bind (encFeed B)

/-- The stream reading of a run of `ENC.DATA` commands (R106). -/
theorem encFeed_spec (B : List Byte) (e : EncState) (hp : e.phase ≠ 3)
    (hr : e.res.toNat < 2 ^ encWidth e.phase) :
    ∃ e' W, encFeed B e = some e' ∧ e'.phase ≠ 3 ∧ e'.phase.toNat = (e.phase.toNat + B.length) % 3
      ∧ e'.res.toNat < 2 ^ encWidth e'.phase
      ∧ encPending e ++ byteStream B = W ++ encPending e' ∧ 6 ∣ W.length ∧ e'.outq = e.outq ++ encWindows W := by
  induction B generalizing e with
  | nil =>
    refine ⟨e, [], rfl, hp, ?_, hr, by simp, by simp, by simp [encWindows, windows]⟩
    have : e.phase.toNat < 4 := e.phase.isLt
    have : e.phase.toNat ≠ 3 := fun h => hp (BitVec.eq_of_toNat_eq h)
    simp
    omega
  | cons b B ih =>
    obtain ⟨e₁, W₁, h₁, hp₁, hq₁, hr₁, hs₁, hd₁, ho₁⟩ := encDataUnit_spec b e hp
    obtain ⟨e₂, W₂, h₂, hp₂, hq₂, hr₂, hs₂, hd₂, ho₂⟩ := ih e₁ hp₁ hr₁
    refine ⟨e₂, W₁ ++ W₂, by simp [encFeed, h₁, h₂], hp₂, ?_, hr₂, ?_, ?_, ?_⟩
    · rw [hq₂, hq₁]; simp; omega
    · rw [byteStream_cons, ← List.append_assoc, hs₁, List.append_assoc, hs₂, List.append_assoc]
    · simpa using Nat.dvd_add hd₁ hd₂
    · rw [ho₂, ho₁, encWindows_append hd₁, List.append_assoc]

end Sys2Proof.Machine
end

