-- ==== Sys2Proof/Laws/Decoder.lean ====
section
/-! SUPPORT. What the decoder's commands do to its bit stream: each surviving code moves whole 8-bit windows from the pending
bits to the output queue; a foreign code does nothing (42_decoder.md R133, R134, R136). -/

namespace Sys2Proof.Machine

open Sys2Proof

/-- The bits received and not yet emitted, in stream order (10_state.md R25). -/
def decPending (d : DecState) : List Bool := bitsOf (d.res.extractLsb' 0 (decWidth d.phase))

/-- The bytes of the full windows of a bit stream. -/
def decWindows (W : List Bool) : List Byte := windows 8 byteOf W

@[simp] theorem decPending_length (d : DecState) : (decPending d).length = decWidth d.phase := by simp [decPending]

theorem decPending_betweenCalls {d : DecState} (h : d.betweenCalls) : decPending d = [] := by
  apply List.eq_nil_of_length_eq_zero
  simp [h.1, decWidth]

theorem decWindows_append {W X : List Bool} (h : 8 ∣ W.length) :
    decWindows (W ++ X) = decWindows W ++ decWindows X := windows_append (by omega) h

theorem decWindows_one (v : Byte) : decWindows (bitsOf v) = [v] := by
  simp [decWindows, windows_one]

theorem decIndexUnit_zero (v r : Sextet) (o : List Byte) : decIndexUnit v ⟨0, r, o⟩ = ⟨1, v, o⟩ := rfl

theorem decIndexUnit_one (v r : Sextet) (o : List Byte) :
    decIndexUnit v ⟨1, r, o⟩ =
      ⟨2, ((decJoin1 r v).extractLsb' 0 4).setWidth 6, o ++ [(decJoin1 r v).extractLsb' 4 8]⟩ := rfl

theorem decIndexUnit_two (v r : Sextet) (o : List Byte) :
    decIndexUnit v ⟨2, r, o⟩ =
      ⟨3, ((decJoin2 r v).extractLsb' 0 2).setWidth 6, o ++ [(decJoin2 r v).extractLsb' 2 8]⟩ := rfl

theorem decIndexUnit_three (v r : Sextet) (o : List Byte) :
    decIndexUnit v ⟨3, r, o⟩ = ⟨0, 0, o ++ [decJoin3 r v]⟩ := rfl

theorem decPending_zero (r : Sextet) (o : List Byte) : decPending ⟨0, r, o⟩ = [] := rfl

theorem decPending_one (r : Sextet) (o : List Byte) : decPending ⟨1, r, o⟩ = bitsOf r := by
  revert r
  simp only [decPending]
  decide

theorem decPending_two (r : Sextet) (o : List Byte) : decPending ⟨2, r, o⟩ = bitsOf (r.extractLsb' 0 4) := by
  revert r
  simp only [decPending]
  decide

theorem decPending_three (r : Sextet) (o : List Byte) : decPending ⟨3, r, o⟩ = bitsOf (r.extractLsb' 0 2) := by
  revert r
  simp only [decPending]
  decide

/-- A surviving code appends the bytes of the windows it completes and keeps the rest pending, in every phase. -/
theorem decIndexUnit_spec (v : Sextet) (d : DecState) :
    ∃ W, (decIndexUnit v d).phase.toNat = (d.phase.toNat + 1) % 4
      ∧ (decIndexUnit v d).res.toNat < 2 ^ decWidth (decIndexUnit v d).phase
      ∧ decPending d ++ bitsOf v = W ++ decPending (decIndexUnit v d) ∧ 8 ∣ W.length
      ∧ (decIndexUnit v d).outq = d.outq ++ decWindows W := by
  obtain ⟨q, r, o⟩ := d
  rcases phase_cases q with rfl | rfl | rfl | rfl
  · refine ⟨[], ?_⟩
    rw [decIndexUnit_zero, decPending_zero, decPending_one]
    exact ⟨rfl, v.isLt, rfl, by simp, by simp [decWindows, windows]⟩
  · refine ⟨bitsOf ((decJoin1 r v).extractLsb' 4 8), ?_⟩
    rw [decIndexUnit_one, decPending_one, decPending_two, decWindows_one, ← bitsOf_append]
    refine ⟨rfl, ?_, ?_, by simp, rfl⟩
    · have := ((decJoin1 r v).extractLsb' 0 4).isLt
      simp only [BitVec.toNat_setWidth, decWidth]
      exact Nat.lt_of_le_of_lt (Nat.mod_le _ _) this
    · refine (bitsOf_split (n := 8) (m := 4) (decJoin1 r v)).trans ?_
      congr 2
      generalize (decJoin1 r v).extractLsb' 0 4 = x
      revert x; decide
  · refine ⟨bitsOf ((decJoin2 r v).extractLsb' 2 8), ?_⟩
    rw [decIndexUnit_two, decPending_two, decPending_three, decWindows_one, ← bitsOf_append]
    refine ⟨rfl, ?_, ?_, by simp, rfl⟩
    · have := ((decJoin2 r v).extractLsb' 0 2).isLt
      simp only [BitVec.toNat_setWidth, decWidth]
      exact Nat.lt_of_le_of_lt (Nat.mod_le _ _) this
    · refine (bitsOf_split (n := 8) (m := 2) (decJoin2 r v)).trans ?_
      congr 2
      generalize (decJoin2 r v).extractLsb' 0 2 = x
      revert x; decide
  · refine ⟨bitsOf (decJoin3 r v), ?_⟩
    rw [decIndexUnit_three, decPending_three, decPending_zero, decWindows_one, ← bitsOf_append]
    exact ⟨(by decide : (0 : BitVec 2).toNat = ((3 : BitVec 2).toNat + 1) % 4), (by decide : 0 < 1), (List.append_nil _).symm, by simp, rfl⟩

theorem decDataUnit_valid {c : Byte} (h : (indexOf c).valid = true) (d : DecState) :
    decDataUnit c d = decIndexUnit (indexOf c).idx d := by simp [decDataUnit, h]

theorem decDataUnit_invalid {c : Byte} (h : (indexOf c).valid = false) (d : DecState) : decDataUnit c d = d := by
  simp [decDataUnit, h]

/-- A legal residue is the value of the pending bits. -/
theorem valOf_decPending {d : DecState} (h : d.res.toNat < 2 ^ decWidth d.phase) :
    valOf (decPending d) = d.res.toNat := by
  simp [decPending, Nat.mod_eq_of_lt h]

@[simp] theorem surviving_nil : surviving [] = [] := rfl

theorem surviving_cons_valid {c : Byte} (h : (indexOf c).valid = true) (T : List Byte) :
    surviving (c :: T) = (indexOf c).idx :: surviving T := by simp [surviving, h]

theorem surviving_cons_invalid {c : Byte} (h : (indexOf c).valid = false) (T : List Byte) :
    surviving (c :: T) = surviving T := by simp [surviving, h]

/-- A run of `DEC.DATA` commands on the unit. -/
def decFeed (T : List Byte) (d : DecState) : DecState := T.foldl (fun d c => decDataUnit c d) d

/-- Foreign codes do not matter to the unit (R139). -/
theorem decFeed_surviving (T : List Byte) (d : DecState) :
    decFeed T d = (surviving T).foldl (fun d v => decIndexUnit v d) d := by
  induction T generalizing d with
  | nil => rfl
  | cons c T ih =>
    cases h : (indexOf c).valid with
    | true => simpa [decFeed, surviving_cons_valid h, decDataUnit_valid h] using ih _
    | false => simpa [decFeed, surviving_cons_invalid h, decDataUnit_invalid h] using ih _

/-- The stream reading of a run of `DEC.DATA` commands (R136). -/
theorem decFeed_spec (T : List Byte) (d : DecState) (hr : d.res.toNat < 2 ^ decWidth d.phase) :
    ∃ W, (decFeed T d).phase.toNat = (d.phase.toNat + (surviving T).length) % 4
      ∧ (decFeed T d).res.toNat < 2 ^ decWidth (decFeed T d).phase
      ∧ decPending d ++ sextetStream (surviving T) = W ++ decPending (decFeed T d) ∧ 8 ∣ W.length
      ∧ (decFeed T d).outq = d.outq ++ decWindows W := by
  rw [decFeed_surviving]
  generalize surviving T = F
  induction F generalizing d with
  | nil =>
    have := d.phase.isLt
    exact ⟨[], by simp; omega, hr, by simp, by simp, by simp [decWindows, windows]⟩
  | cons v F ih =>
    obtain ⟨W₁, hq₁, hr₁, hs₁, hd₁, ho₁⟩ := decIndexUnit_spec v d
    obtain ⟨W₂, hq₂, hr₂, hs₂, hd₂, ho₂⟩ := ih (decIndexUnit v d) hr₁
    refine ⟨W₁ ++ W₂, ?_, hr₂, ?_, ?_, ?_⟩
    · rw [List.foldl_cons, hq₂, hq₁]; simp; omega
    · rw [sextetStream_cons, ← List.append_assoc, hs₁, List.append_assoc, hs₂, List.append_assoc, List.foldl_cons]
    · simpa using Nat.dvd_add hd₁ hd₂
    · rw [List.foldl_cons, ho₂, ho₁, decWindows_append hd₁, List.append_assoc]

end Sys2Proof.Machine
end

