-- ==== Sys2Proof/Laws/Ops.lean ====
section
/-! SUPPORT. One lemma per shared operation, saying once everything it can do; the provers cite these instead of unfolding. -/

namespace Sys2Proof.Machine

open Sys2Proof

@[simp] theorem hasRoom_setRecord (p q : Port) (s : State) (r : Record) :
    hasRoom p (s.setRecord q r) = hasRoom p s := by simp [hasRoom]

@[simp] theorem hasRoom_setScript (p : Port) (s : State) (ms : List Move) :
    hasRoom p (s.setScript ms) = hasRoom p s := by simp [hasRoom]

theorem idle_iff (p : Port) (s : State) : idle p s = true ↔ outq p s = [] := by simp [idle]

theorem cmdReady_iff (p : Port) (s : State) :
    cmdReady p s = true ↔
      s.wasReset = true ∧ (outq p s).length + Config.mostOutputs p ≤ Config.outDepth p := by
  simp [cmdReady, hasRoom]

theorem outValid_iff (p : Port) (s : State) : outValid p s = true ↔ s.wasReset = true ∧ outq p s ≠ [] := by
  simp [outValid, idle]

/-- What accepting a command can answer. -/
theorem acceptCommand_cases (p : Port) (s : State) (k : State → Outcome) :
    (cmdReady p s = true ∧ acceptCommand p s k = k s)
      ∨ (s.wasReset = true ∧ cmdReady p s = false ∧ acceptCommand p s k = .next s)
      ∨ (s.wasReset = false ∧ acceptCommand p s k = .refused .beforeReset) := by
  cases h : s.wasReset <;> cases h' : hasRoom p s <;> simp [acceptCommand, cmdReady, h, h']

theorem acceptCommand_ready {p : Port} {s : State} (k : State → Outcome) (h : cmdReady p s = true) :
    acceptCommand p s k = k s := by
  simp only [cmdReady, Bool.and_eq_true] at h
  simp [acceptCommand, h]

theorem acceptCommand_full {p : Port} {s : State} (k : State → Outcome) (hr : s.wasReset = true)
    (h : cmdReady p s = false) : acceptCommand p s k = .next s := by
  simp only [cmdReady, hr, Bool.true_and] at h
  simp [acceptCommand, hr, h]

theorem acceptCommand_beforeReset (p : Port) {s : State} (k : State → Outcome) (h : s.wasReset = false) :
    acceptCommand p s k = .refused .beforeReset := by
  simp [acceptCommand, h]

theorem commitEnc_eq_next {s t : State} {e : Option EncState} :
    commitEnc s e = .next t ↔ ∃ e', e = some e' ∧ t = s.setEnc e' := by
  cases e <;> simp [commitEnc, eq_comm]

/-- What popping the encoder's queue does. -/
theorem popUnit_enc_nil {s : State} (h : s.enc.outq = []) : popUnit .enc s = s := by simp [popUnit, h]

theorem popUnit_dec_nil {s : State} (h : s.dec.outq = []) : popUnit .dec s = s := by simp [popUnit, h]

theorem popUnit_enc_cons {s : State} {v : Byte} {q : List Byte} (h : s.enc.outq = v :: q) :
    popUnit .enc s = (s.setEnc { s.enc with outq := q }).setRecord .enc (s.host.enc.deliver v) := by
  simp [popUnit, h]

theorem popUnit_dec_cons {s : State} {v : Byte} {q : List Byte} (h : s.dec.outq = v :: q) :
    popUnit .dec s = (s.setDec { s.dec with outq := q }).setRecord .dec (s.host.dec.deliver v) := by
  simp [popUnit, h]

/-- A pop moves the head of the queue to the values popped, and touches neither phase, residue nor call ends. -/
theorem popUnit_enc_spec (s : State) :
    (popUnit .enc s).host.enc.popped ++ (popUnit .enc s).enc.outq = s.host.enc.popped ++ s.enc.outq
      ∧ (popUnit .enc s).enc.outq = s.enc.outq.tail
      ∧ (popUnit .enc s).enc.phase = s.enc.phase ∧ (popUnit .enc s).enc.res = s.enc.res
      ∧ (popUnit .enc s).host.enc.bounds = s.host.enc.bounds
      ∧ (popUnit .enc s).host.enc.idleReads = s.host.enc.idleReads
      ∧ (popUnit .enc s).dec = s.dec ∧ (popUnit .enc s).host.dec = s.host.dec
      ∧ (popUnit .enc s).wasReset = s.wasReset ∧ (popUnit .enc s).host.script = s.host.script := by
  cases h : s.enc.outq with
  | nil => simp [popUnit_enc_nil h, h]
  | cons v q => simp [popUnit_enc_cons h]

theorem popUnit_dec_spec (s : State) :
    (popUnit .dec s).host.dec.popped ++ (popUnit .dec s).dec.outq = s.host.dec.popped ++ s.dec.outq
      ∧ (popUnit .dec s).dec.outq = s.dec.outq.tail
      ∧ (popUnit .dec s).dec.phase = s.dec.phase ∧ (popUnit .dec s).dec.res = s.dec.res
      ∧ (popUnit .dec s).host.dec.bounds = s.host.dec.bounds
      ∧ (popUnit .dec s).host.dec.idleReads = s.host.dec.idleReads
      ∧ (popUnit .dec s).enc = s.enc ∧ (popUnit .dec s).host.enc = s.host.enc
      ∧ (popUnit .dec s).wasReset = s.wasReset ∧ (popUnit .dec s).host.script = s.host.script := by
  cases h : s.dec.outq with
  | nil => simp [popUnit_dec_nil h, h]
  | cons v q => simp [popUnit_dec_cons h]

theorem execPop_eq_next {p : Port} {s t : State} :
    execPop p s = .next t ↔ s.wasReset = true ∧ t = popUnit p s := by
  cases h : s.wasReset <;> simp [execPop, h, eq_comm]

theorem execReadIdle_eq_next {p : Port} {s t : State} :
    execReadIdle p s = .next t ↔
      s.wasReset = true ∧ t = s.setRecord p ((s.record p).sawIdle (idle p s)) := by
  cases h : s.wasReset <;> simp [execReadIdle, h, eq_comm]

end Sys2Proof.Machine
end

