-- ==== Sys2Proof/Laws/Exec.lean ====
section
/-! SUPPORT. What each command can answer, and what each transaction can answer: the inversion lemmas of the step. -/

namespace Sys2Proof.Machine

open Sys2Proof

/-- An accepted `ENC.DATA` that answers a next state ran one case of R103. -/
theorem exec_encData_eq_next {b : Byte} {s t : State} (hr : cmdReady .enc s = true) :
    exec (.encData b) s = .next t ↔ ∃ e, encDataUnit b s.enc = some e ∧ t = s.setEnc e := by
  simp [exec, execEncData, acceptCommand_ready _ hr, commitEnc_eq_next]

/-- An accepted `ENC.END` that answers a next state ran one case of R104 and closed the call. -/
theorem exec_encEnd_eq_next {s t : State} (hr : cmdReady .enc s = true) :
    exec .encEnd s = .next t ↔ ∃ e, encEndUnit s.enc = some e ∧ t = closeEncCall (s.setEnc e) := by
  simp only [exec, execEncEnd, acceptCommand_ready _ hr, encEndAccepted]
  cases encEndUnit s.enc <;> simp [eq_comm]

/-- An accepted `DEC.DATA` always answers a next state. -/
theorem exec_decData_ready {c : Byte} {s : State} (hr : cmdReady .dec s = true) :
    exec (.decData c) s = .next (s.setDec (decDataUnit c s.dec)) := by
  simp [exec, execDecData, acceptCommand_ready _ hr]

/-- An accepted `DEC.END` always answers a next state. -/
theorem exec_decEnd_ready {s : State} (hr : cmdReady .dec s = true) :
    exec .decEnd s = .next (closeDecCall (s.setDec (decEndUnit s.dec))) := by
  simp [exec, execDecEnd, acceptCommand_ready _ hr]

/-- A command of a unit without room, after reset, changes nothing. -/
theorem exec_full {i : Instr} {s : State} (hw : s.wasReset = true) (h : cmdReady i.port s = false) :
    exec i s = .next s := by
  cases i <;> simp only [exec, execEncData, execEncEnd, execDecData, execDecEnd] <;>
    exact acceptCommand_full _ hw h

/-- Before the first reset every command is refused. -/
theorem exec_beforeReset {i : Instr} {s : State} (h : s.wasReset = false) : exec i s = .refused .beforeReset := by
  cases i <;> simp only [exec, execEncData, execEncEnd, execDecData, execDecEnd] <;>
    exact acceptCommand_beforeReset _ _ h

@[simp] theorem decode_port (p : Port) (w : CmdWord) : (decode p w).port = p := by
  cases p <;> simp only [decode] <;> split <;> rfl

/-- A word decodes to no command of another port (30_encoding.md R64). -/
theorem decode_ne_of_port {p : Port} {w : CmdWord} {i : Instr} (h : i.port ≠ p) : decode p w ≠ i := fun e =>
  h (by rw [← e, decode_port])

/-- What a command that answers a next state has done: nothing (no room), or the effect of its rule. -/
theorem exec_next_cases {i : Instr} {s t : State} (h : exec i s = .next t) :
    s.wasReset = true ∧
      ((cmdReady i.port s = false ∧ t = s)
        ∨ cmdReady i.port s = true ∧
          ((∃ b e, i = .encData b ∧ encDataUnit b s.enc = some e ∧ t = s.setEnc e)
            ∨ (∃ e, i = .encEnd ∧ encEndUnit s.enc = some e ∧ t = closeEncCall (s.setEnc e))
            ∨ (∃ c, i = .decData c ∧ t = s.setDec (decDataUnit c s.dec))
            ∨ (i = .decEnd ∧ t = closeDecCall (s.setDec (decEndUnit s.dec))))) := by
  cases hw : s.wasReset with
  | false => simp [exec_beforeReset hw] at h
  | true =>
    refine ⟨rfl, ?_⟩
    cases hr : cmdReady i.port s with
    | false => exact .inl ⟨rfl, by simpa [exec_full hw hr, eq_comm] using h⟩
    | true =>
      refine .inr ⟨rfl, ?_⟩
      cases i with
      | encData b =>
        obtain ⟨e, he, rfl⟩ := (exec_encData_eq_next hr).1 h
        exact .inl ⟨b, e, rfl, he, rfl⟩
      | encEnd =>
        obtain ⟨e, he, rfl⟩ := (exec_encEnd_eq_next hr).1 h
        exact .inr (.inl ⟨e, rfl, he, rfl⟩)
      | decData c =>
        rw [exec_decData_ready hr] at h
        exact .inr (.inr (.inl ⟨c, rfl, by simpa [eq_comm] using h⟩))
      | decEnd =>
        rw [exec_decEnd_ready hr] at h
        exact .inr (.inr (.inr ⟨rfl, by simpa [eq_comm] using h⟩))

/-- What a transaction that answers a next state is. -/
theorem perform_next_cases {m : Move} {s t : State} (h : perform m s = .next t) :
    (∃ p w, m = .cmd p w ∧ exec (decode p w) s = .next t)
      ∨ (∃ p, m = .pop p ∧ s.wasReset = true ∧ t = popUnit p s)
      ∨ (∃ p, m = .readIdle p ∧ s.wasReset = true ∧ t = s.setRecord p ((s.record p).sawIdle (idle p s)))
      ∨ (m = .reset ∧ t = resetBlock s) := by
  cases m with
  | cmd p w => exact .inl ⟨p, w, rfl, h⟩
  | pop p => exact .inr (.inl ⟨p, rfl, execPop_eq_next.1 h⟩)
  | readIdle p => exact .inr (.inr (.inl ⟨p, rfl, execReadIdle_eq_next.1 h⟩))
  | reset => exact .inr (.inr (.inr ⟨rfl, by simpa [perform, execReset, eq_comm] using h⟩))

/-- No transaction answers a fault: the Fault type has no value (60_exceptions.md R160). -/
theorem perform_not_fault (m : Move) (s : State) (f : Fault) : perform m s ≠ .fault f := nomatch f

@[simp] theorem cmdReady_setScript (p : Port) (s : State) (ms : List Move) :
    cmdReady p (s.setScript ms) = cmdReady p s := by simp [cmdReady]

/-- The script plays no part in a command. -/
theorem exec_setScript {i : Instr} {s t : State} (ms : List Move) (h : exec i s = .next t) :
    exec i (s.setScript ms) = .next (t.setScript ms) := by
  obtain ⟨hw, ⟨hn, rfl⟩ | ⟨hr, ⟨b, e, rfl, hu, rfl⟩ | ⟨e, rfl, hu, rfl⟩ | ⟨c, rfl, rfl⟩ | ⟨rfl, rfl⟩⟩⟩ :=
    exec_next_cases h
  · exact exec_full hw (by simpa [cmdReady] using hn)
  all_goals
    replace hr := (cmdReady_setScript _ s ms).trans hr
  · exact (exec_encData_eq_next hr).2 ⟨e, hu, by simp⟩
  · exact (exec_encEnd_eq_next hr).2 ⟨e, hu, by simp [closeEncCall]⟩
  · exact (exec_decData_ready hr).trans (by simp)
  · exact (exec_decEnd_ready hr).trans (by simp [closeDecCall])

theorem popUnit_setScript (p : Port) (s : State) (ms : List Move) :
    popUnit p (s.setScript ms) = (popUnit p s).setScript ms := by
  cases p with
  | enc =>
    cases h : s.enc.outq
    · rw [popUnit_enc_nil h, popUnit_enc_nil (by simpa using h)]
    · rw [popUnit_enc_cons h, popUnit_enc_cons (by simpa using h)]; simp
  | dec =>
    cases h : s.dec.outq
    · rw [popUnit_dec_nil h, popUnit_dec_nil (by simpa using h)]
    · rw [popUnit_dec_cons h, popUnit_dec_cons (by simpa using h)]; simp

/-- The script plays no part in a transaction. -/
theorem perform_setScript {m : Move} {s t : State} (ms : List Move) (h : perform m s = .next t) :
    perform m (s.setScript ms) = .next (t.setScript ms) := by
  obtain ⟨p, w, rfl, h⟩ | ⟨p, rfl, hw, rfl⟩ | ⟨p, rfl, hw, rfl⟩ | ⟨rfl, rfl⟩ := perform_next_cases h
  · exact exec_setScript ms h
  · exact execPop_eq_next.2 ⟨by simpa using hw, (popUnit_setScript p s ms).symm⟩
  · exact execReadIdle_eq_next.2 ⟨by simpa using hw, by simp [idle]⟩
  · rfl

@[simp] theorem enabled_setScript (m : Move) (s : State) (ms : List Move) :
    enabled m (s.setScript ms) = enabled m s := by
  cases m <;> simp [enabled, cmdReady, outValid, idle]

theorem runMoves_cons {m : Move} {ms : List Move} {s t : State} :
    runMoves (m :: ms) s = some t ↔
      enabled m s = true ∧ ∃ u, perform m s = .next u ∧ runMoves ms u = some t := by
  simp only [runMoves]
  cases hen : enabled m s <;> simp
  cases perform m s <;> simp

theorem runMoves_append {ms ns : List Move} {s t : State} :
    runMoves (ms ++ ns) s = some t ↔ ∃ u, runMoves ms s = some u ∧ runMoves ns u = some t := by
  induction ms generalizing s with
  | nil => simp [runMoves]
  | cons m ms ih =>
    simp only [List.cons_append, runMoves_cons, ih]
    constructor
    · rintro ⟨he, u, hp, v, hv, hn⟩
      exact ⟨v, ⟨he, u, hp, hv⟩, hn⟩
    · rintro ⟨v, ⟨he, u, hp, hv⟩, hn⟩
      exact ⟨he, u, hp, v, hv, hn⟩

/-- What one step of the machine does, by the head of the host's script. -/
theorem step_cases (s : State) :
    (s.host.script = [] ∧ step s = .next s)
      ∨ ∃ m rest, s.host.script = m :: rest ∧
        ((s.wasReset = true ∧ enabled m s = false ∧ step s = .next s)
          ∨ ((s.wasReset = false ∨ enabled m s = true) ∧ step s = perform m (s.setScript rest))) := by
  cases h : s.host.script with
  | nil => exact .inl ⟨rfl, by simp [step, h]⟩
  | cons m rest =>
    refine .inr ⟨m, rest, rfl, ?_⟩
    cases hw : s.wasReset <;> cases he : enabled m s <;> simp [step, h, performNext, waits, hw, he]

/-- Running the machine one step further. -/
theorem core_run_succ {s u : State} (h : step s = .next u) (n : Nat) : core.run (n + 1) s = core.run n u := by
  have h' : core.step s = .next u := h
  simp only [Host.Core.run, h']

end Sys2Proof.Machine
end

