-- ==== Sys2Proof/Laws/Run.lean ====
section
/-! SUPPORT. What a run of transactions does to one unit: only the unit's commands matter, in order, when the values popped
and the values queued are taken together. -/

namespace Sys2Proof.Machine

open Sys2Proof

/-- The encoder with everything it has ever output (popped or still queued) in its queue. -/
def State.encTotal (s : State) : EncState := { s.enc with outq := s.host.enc.popped ++ s.enc.outq }

/-- The decoder with everything it has ever output (popped or still queued) in its queue. -/
def State.decTotal (s : State) : DecState := { s.dec with outq := s.host.dec.popped ++ s.dec.outq }

@[simp] theorem State.encTotal_phase (s : State) : s.encTotal.phase = s.enc.phase := rfl
@[simp] theorem State.encTotal_res (s : State) : s.encTotal.res = s.enc.res := rfl
@[simp] theorem State.encTotal_outq (s : State) : s.encTotal.outq = s.host.enc.popped ++ s.enc.outq := rfl
@[simp] theorem State.decTotal_phase (s : State) : s.decTotal.phase = s.dec.phase := rfl
@[simp] theorem State.decTotal_res (s : State) : s.decTotal.res = s.dec.res := rfl
@[simp] theorem State.decTotal_outq (s : State) : s.decTotal.outq = s.host.dec.popped ++ s.dec.outq := rfl

/-- A command's effect on the encoder unit alone. -/
def encApply : Instr → EncState → Option EncState
  | .encData b, e => encDataUnit b e
  | .encEnd, e => encEndUnit e
  | .decData _, e => some e
  | .decEnd, e => some e

/-- A command's effect on the decoder unit alone. -/
def decApply : Instr → DecState → DecState
  | .encData _, d => d
  | .encEnd, d => d
  | .decData c, d => decDataUnit c d
  | .decEnd, d => decEndUnit d

def encApplyAll : List Instr → EncState → Option EncState
  | [], e => some e
  | i :: is, e => (encApply i e).bind (encApplyAll is)

def decApplyAll (is : List Instr) (d : DecState) : DecState := is.foldl (fun d i => decApply i d) d

/-- The unit's rules do not look at what is queued. -/
theorem encDataUnit_queue (b : Byte) (e e' : EncState) (p : List Byte) (h : encDataUnit b e = some e') :
    encDataUnit b { e with outq := p ++ e.outq } = some { e' with outq := p ++ e'.outq } := by
  obtain ⟨q, r, o⟩ := e
  rcases phase_cases q with rfl | rfl | rfl | rfl
  · rw [encDataUnit_zero] at h; cases h
    show encDataUnit b ⟨0, r, p ++ o⟩ = _
    rw [encDataUnit_zero, List.append_assoc]
  · rw [encDataUnit_one] at h; cases h
    show encDataUnit b ⟨1, r, p ++ o⟩ = _
    rw [encDataUnit_one, List.append_assoc]
  · rw [encDataUnit_two] at h; cases h
    show encDataUnit b ⟨2, r, p ++ o⟩ = _
    rw [encDataUnit_two, List.append_assoc]
  · exact absurd h (by simp [encDataUnit])

theorem encEndUnit_queue (e e' : EncState) (p : List Byte) (h : encEndUnit e = some e') :
    encEndUnit { e with outq := p ++ e.outq } = some { e' with outq := p ++ e'.outq } := by
  obtain ⟨q, r, o⟩ := e
  rcases phase_cases q with rfl | rfl | rfl | rfl
  · rw [encEndUnit_zero] at h; cases h
    show encEndUnit ⟨0, r, p ++ o⟩ = _
    rw [encEndUnit_zero]
  · rw [encEndUnit_one] at h; cases h
    show encEndUnit ⟨1, r, p ++ o⟩ = _
    rw [encEndUnit_one, List.append_assoc]
  · rw [encEndUnit_two] at h; cases h
    show encEndUnit ⟨2, r, p ++ o⟩ = _
    rw [encEndUnit_two, List.append_assoc]
  · exact absurd h (by simp [encEndUnit])

theorem decDataUnit_queue (c : Byte) (d : DecState) (p : List Byte) :
    decDataUnit c { d with outq := p ++ d.outq } = { decDataUnit c d with outq := p ++ (decDataUnit c d).outq } := by
  cases h : (indexOf c).valid with
  | false => simp [decDataUnit_invalid h]
  | true =>
    obtain ⟨q, r, o⟩ := d
    simp only [decDataUnit_valid h]
    rcases phase_cases q with rfl | rfl | rfl | rfl
    · rfl
    · simp only [decIndexUnit_one, List.append_assoc]
    · simp only [decIndexUnit_two, List.append_assoc]
    · simp only [decIndexUnit_three, List.append_assoc]

theorem wellFormedOn_iff (p : Port) (i : Instr) : wellFormedOn p i = true ↔ i.port = p := by simp [wellFormedOn]

theorem commandsOn_cons_cmd (p : Port) (w : CmdWord) (ms : List Move) :
    commandsOn p (.cmd p w :: ms) = decode p w :: commandsOn p ms := by
  simp [commandsOn, Move.command, wellFormedOn]

theorem commandsOn_cons_other {p : Port} {m : Move} (h : ∀ w, m ≠ .cmd p w) (ms : List Move) :
    commandsOn p (m :: ms) = commandsOn p ms := by
  cases m with
  | cmd q w =>
    have : q ≠ p := fun e => h w (by rw [e])
    simp [commandsOn, Move.command, wellFormedOn, this]
  | pop q => rfl
  | readIdle q => rfl
  | reset => rfl

@[simp] theorem commandsOn_nil (p : Port) : commandsOn p [] = [] := rfl

theorem commandsOn_append (p : Port) (ms ns : List Move) :
    commandsOn p (ms ++ ns) = commandsOn p ms ++ commandsOn p ns := by
  simp [commandsOn]

theorem popUnit_encTotal (p : Port) (s : State) : (popUnit p s).encTotal = s.encTotal := by
  cases p with
  | enc =>
    have h := popUnit_enc_spec s
    simp only [State.encTotal, h.1, h.2.2.1, h.2.2.2.1]
  | dec =>
    have h := popUnit_dec_spec s
    simp only [State.encTotal, h]

theorem popUnit_decTotal (p : Port) (s : State) : (popUnit p s).decTotal = s.decTotal := by
  cases p with
  | enc =>
    have h := popUnit_enc_spec s
    simp only [State.decTotal, h]
  | dec =>
    have h := popUnit_dec_spec s
    simp only [State.decTotal, h.1, h.2.2.1, h.2.2.2.1]

/-- A transaction that is no encoder command and no reset leaves the encoder's total as it was. -/
theorem perform_encTotal_other {m : Move} {s t : State} (hm : ∀ w, m ≠ .cmd .enc w) (hr : m ≠ .reset)
    (h : perform m s = .next t) : t.encTotal = s.encTotal := by
  obtain ⟨p, w, rfl, h⟩ | ⟨p, rfl, -, rfl⟩ | ⟨p, rfl, -, rfl⟩ | ⟨rfl, -⟩ := perform_next_cases h
  · cases p with
    | enc => exact absurd rfl (hm w)
    | dec =>
      obtain ⟨-, ⟨-, rfl⟩ | ⟨-, ⟨b, e, hi, -⟩ | ⟨e, hi, -⟩ | ⟨c, -, rfl⟩ | ⟨-, rfl⟩⟩⟩ := exec_next_cases h
      · rfl
      · exact absurd hi (decode_ne_of_port (by simp [Instr.port]))
      · exact absurd hi (decode_ne_of_port (by simp [Instr.port]))
      · rfl
      · rfl
  · exact popUnit_encTotal p s
  · cases p <;> rfl
  · exact absurd rfl hr

theorem perform_decTotal_other {m : Move} {s t : State} (hm : ∀ w, m ≠ .cmd .dec w) (hr : m ≠ .reset)
    (h : perform m s = .next t) : t.decTotal = s.decTotal := by
  obtain ⟨p, w, rfl, h⟩ | ⟨p, rfl, -, rfl⟩ | ⟨p, rfl, -, rfl⟩ | ⟨rfl, -⟩ := perform_next_cases h
  · cases p with
    | dec => exact absurd rfl (hm w)
    | enc =>
      obtain ⟨-, ⟨-, rfl⟩ | ⟨-, ⟨b, e, -, -, rfl⟩ | ⟨e, -, -, rfl⟩ | ⟨c, hi, -⟩ | ⟨hi, -⟩⟩⟩ := exec_next_cases h
      · rfl
      · rfl
      · rfl
      · exact absurd hi (decode_ne_of_port (by simp [Instr.port]))
      · exact absurd hi (decode_ne_of_port (by simp [Instr.port]))
  · exact popUnit_decTotal p s
  · cases p <;> rfl
  · exact absurd rfl hr

/-- An accepted encoder command does to the encoder's total what it does to the unit. -/
theorem perform_encTotal_cmd {w : CmdWord} {s t : State} (he : enabled (.cmd .enc w) s = true)
    (h : perform (.cmd .enc w) s = .next t) : encApply (decode .enc w) s.encTotal = some t.encTotal := by
  have hc : cmdReady .enc s = true := he
  obtain ⟨-, ⟨hn, -⟩ | ⟨-, ⟨b, e, hi, hu, rfl⟩ | ⟨e, hi, hu, rfl⟩ | ⟨c, hi, -⟩ | ⟨hi, -⟩⟩⟩ := exec_next_cases h
  · simp [hc] at hn
  · rw [hi]; exact encDataUnit_queue b _ _ _ hu
  · rw [hi]; exact encEndUnit_queue _ _ _ hu
  · exact absurd hi (decode_ne_of_port (by simp [Instr.port]))
  · exact absurd hi (decode_ne_of_port (by simp [Instr.port]))

theorem perform_decTotal_cmd {w : CmdWord} {s t : State} (he : enabled (.cmd .dec w) s = true)
    (h : perform (.cmd .dec w) s = .next t) : t.decTotal = decApply (decode .dec w) s.decTotal := by
  have hc : cmdReady .dec s = true := he
  obtain ⟨-, ⟨hn, -⟩ | ⟨-, ⟨b, e, hi, -⟩ | ⟨e, hi, -⟩ | ⟨c, hi, rfl⟩ | ⟨hi, rfl⟩⟩⟩ := exec_next_cases h
  · simp [hc] at hn
  · exact absurd hi (decode_ne_of_port (by simp [Instr.port]))
  · exact absurd hi (decode_ne_of_port (by simp [Instr.port]))
  · rw [hi]; exact (decDataUnit_queue c _ _).symm
  · rw [hi]; rfl

/-- A run without reset does to the encoder's total what its encoder commands do, in order. -/
theorem runMoves_encTotal {ms : List Move} {s t : State} (h : runMoves ms s = some t) (hr : Move.reset ∉ ms) :
    encApplyAll (commandsOn .enc ms) s.encTotal = some t.encTotal := by
  induction ms generalizing s with
  | nil => simp [runMoves] at h; simp [encApplyAll, h]
  | cons m ms ih =>
    obtain ⟨he, u, hp, hu⟩ := runMoves_cons.1 h
    have hrs := List.not_mem_of_not_mem_cons hr
    by_cases hm : ∃ w, m = .cmd .enc w
    · obtain ⟨w, rfl⟩ := hm
      rw [commandsOn_cons_cmd, encApplyAll, perform_encTotal_cmd he hp]
      exact ih hu hrs
    · rw [commandsOn_cons_other (not_exists.1 hm),
        ← perform_encTotal_other (not_exists.1 hm) (fun e => hr (by simp [e])) hp]
      exact ih hu hrs

/-- A run without reset does to the decoder's total what its decoder commands do, in order. -/
theorem runMoves_decTotal {ms : List Move} {s t : State} (h : runMoves ms s = some t) (hr : Move.reset ∉ ms) :
    t.decTotal = decApplyAll (commandsOn .dec ms) s.decTotal := by
  induction ms generalizing s with
  | nil => simp [runMoves] at h; simp [decApplyAll, h]
  | cons m ms ih =>
    obtain ⟨he, u, hp, hu⟩ := runMoves_cons.1 h
    have hrs := List.not_mem_of_not_mem_cons hr
    by_cases hm : ∃ w, m = .cmd .dec w
    · obtain ⟨w, rfl⟩ := hm
      rw [commandsOn_cons_cmd, ih hu hrs, perform_decTotal_cmd he hp]
      rfl
    · rw [commandsOn_cons_other (not_exists.1 hm), ih hu hrs,
        perform_decTotal_other (not_exists.1 hm) (fun e => hr (by simp [e])) hp]

theorem encApplyAll_append (is js : List Instr) (e : EncState) :
    encApplyAll (is ++ js) e = (encApplyAll is e).bind (encApplyAll js) := by
  induction is generalizing e with
  | nil => rfl
  | cons i is ih => simp only [List.cons_append, encApplyAll]; cases encApply i e <;> simp [ih]

theorem encApplyAll_data (B : List Byte) (e : EncState) : encApplyAll (B.map .encData) e = encFeed B e := by
  induction B generalizing e with
  | nil => rfl
  | cons b B ih =>
    show (encDataUnit b e).bind _ = (encDataUnit b e).bind _
    cases encDataUnit b e <;> simp [ih]

theorem decApplyAll_append (is js : List Instr) (d : DecState) :
    decApplyAll (is ++ js) d = decApplyAll js (decApplyAll is d) := by simp [decApplyAll]

theorem decApplyAll_data (T : List Byte) (d : DecState) : decApplyAll (T.map .decData) d = decFeed T d := by
  simp [decApplyAll, decFeed, List.foldl_map, decApply]

end Sys2Proof.Machine
end

