-- ==== Sys2Proof/Laws/Legal.lean ====
section
/-! SUPPORT. What each operation does to the bounds a legal state keeps: residue widths, queue lengths, and the order of the
host's call boundaries (10_state.md R20 to R26; 70_reset_and_hazards.md R193). -/

namespace Sys2Proof.Machine

open Sys2Proof

/-- Closing a call at or after every earlier boundary keeps the boundaries in order. -/
theorem sorted_close {l : List Boundary} {n k : Nat} (h : (l.map Boundary.pos).Pairwise (· ≤ ·))
    (hb : ∀ b ∈ l, b.pos ≤ n) (hk : n ≤ k) (c : CallClose) : ((l ++ [Boundary.mk c k]).map Boundary.pos).Pairwise (· ≤ ·) := by
  simp only [List.map_append, List.map_cons, List.map_nil]
  rw [List.pairwise_append]
  refine ⟨h, by simp, ?_⟩
  intro a ha b hb'
  simp at hb' ha
  obtain ⟨c, hc, rfl⟩ := ha
  subst hb'
  exact le_trans (hb _ hc) hk

/-- A reset moves every boundary that lies beyond the values popped to where they end, and no other. -/
theorem cutBounds_pos (n start : Nat) (l : List Boundary) :
    (cutBounds n start l).map Boundary.pos = (l.map Boundary.pos).map (min · n) := by
  induction l generalizing start with
  | nil => rfl
  | cons b l ih => simp [ih]

theorem sorted_cut {l : List Boundary} {n start : Nat} (h : (l.map Boundary.pos).Pairwise (· ≤ ·)) :
    ((cutBounds n start l).map Boundary.pos).Pairwise (· ≤ ·) := by
  rw [cutBounds_pos]
  exact List.Pairwise.map _ (fun a b hab => by omega) h

theorem cut_le (n start : Nat) (l : List Boundary) : ∀ b ∈ cutBounds n start l, b.pos ≤ n := by
  intro b hb
  have : b.pos ∈ (cutBounds n start l).map Boundary.pos := List.mem_map_of_mem hb
  rw [cutBounds_pos, List.mem_map] at this
  obtain ⟨k, -, hk⟩ := this
  omega

theorem abandon_legal {r : Record} (h : (r.bounds.map Boundary.pos).Pairwise (· ≤ ·)) : r.abandon.legal 0 := by
  refine ⟨sorted_close (sorted_cut h) (cut_le _ _ _) (le_refl _) _, ?_⟩
  intro b hb
  simp only [Record.abandon_bounds, List.mem_append, List.mem_singleton] at hb
  rcases hb with hb | rfl
  · exact cut_le _ _ _ b hb
  · simp

/-- A record stays legal when its boundaries stay and no value is lost. -/
theorem legal_mono {r r' : Record} {n n' : Nat} (h : r.legal n) (hb : r'.bounds = r.bounds)
    (hn : r.popped.length + n ≤ r'.popped.length + n') : r'.legal n' := by
  rw [Record.legal, hb]
  exact ⟨h.1, fun b hb => le_trans (h.2 b hb) hn⟩

theorem close_legal {r : Record} {n k : Nat} (h : r.legal n) (hn : n ≤ k) : (r.close k).legal k := by
  refine ⟨sorted_close h.1 h.2 (Nat.add_le_add_left hn _) _, ?_⟩
  intro b hb
  simp at hb ⊢
  rcases hb with hb | rfl
  · have := h.2 b hb; omega
  · simp

theorem encData_legal {b : Byte} {e e' : EncState} (h : encDataUnit b e = some e') :
    e'.phase ≠ 3 ∧ e'.res.toNat < 2 ^ encWidth e'.phase ∧ e'.outq.length ≤ e.outq.length + 3 ∧ e.outq.length ≤ e'.outq.length := by
  have hp : e.phase ≠ 3 := fun hp => by simp [encDataUnit, hp] at h
  obtain ⟨e₁, W, he, hp', hq, hr, hs, hd, ho⟩ := encDataUnit_spec b e hp
  rw [h] at he; cases he
  have := congrArg List.length hs
  have : encWidth e.phase ≤ 6 := by have := e.phase.isLt; simp [encWidth]; omega
  simp [ho, encWindows, windows_length] at *
  refine ⟨hp', hr, ?_⟩
  omega

theorem encEnd_legal {e e' : EncState} (h : encEndUnit e = some e') :
    e'.phase ≠ 3 ∧ e'.res.toNat < 2 ^ encWidth e'.phase ∧ e'.outq.length ≤ e.outq.length + 3 ∧ e.outq.length ≤ e'.outq.length := by
  have hp : e.phase ≠ 3 := fun hp => by simp [encEndUnit, hp] at h
  obtain ⟨e₁, he, hb, ho⟩ := encEndUnit_spec e hp
  rw [h] at he; cases he
  refine ⟨by rw [hb.1]; decide, by rw [hb.1, hb.2]; decide, ?_, by simp [ho]⟩
  have : (encTail (encPending e)).length ≤ 3 := by
    simp only [encTail]; split
    · simp
    · rename_i h; simp [encWidth] at *; omega
  simp [ho]; omega

theorem decData_legal (c : Byte) {d : DecState} (h : d.res.toNat < 2 ^ decWidth d.phase) :
    (decDataUnit c d).res.toNat < 2 ^ decWidth (decDataUnit c d).phase := by
  cases hv : (indexOf c).valid with
  | false => rw [decDataUnit_invalid hv]; exact h
  | true => rw [decDataUnit_valid hv]; obtain ⟨W, -, h, -⟩ := decIndexUnit_spec (indexOf c).idx d; exact h

/-- A decoder `DATA` appends at most one byte. -/
theorem decData_append (c : Byte) (d : DecState) : ∃ vs, vs.length ≤ 1 ∧ (decDataUnit c d).outq = d.outq ++ vs := by
  cases h : (indexOf c).valid with
  | false => rw [decDataUnit_invalid h]; exact ⟨[], by simp, by simp⟩
  | true =>
    rw [decDataUnit_valid h]
    obtain ⟨q, r, o⟩ := d
    rcases phase_cases q with rfl | rfl | rfl | rfl
    · exact ⟨[], by simp, (List.append_nil _).symm⟩
    · exact ⟨[_], by simp, rfl⟩
    · exact ⟨[_], by simp, rfl⟩
    · exact ⟨[_], by simp, rfl⟩

end Sys2Proof.Machine
end

