-- ==== Sys2Proof/Laws/Moves.lean ====
section
/-! SUPPORT. Transactions: which unit one acts on, what being enabled depends on, and what a pop leaves of a queue. -/

namespace Sys2Proof.Machine

open Sys2Proof

theorem port_cases (m : Move) : m.port = some .enc ∨ m.port = some .dec ∨ m = .reset := by
  cases m with
  | cmd p w => cases p <;> simp [Move.port]
  | pop p => cases p <;> simp [Move.port]
  | readIdle p => cases p <;> simp [Move.port]
  | reset => simp

theorem state_ext {s t : State} (h1 : s.enc = t.enc) (h2 : s.dec = t.dec) (h3 : s.wasReset = t.wasReset) (h4 : s.host.script = t.host.script)
    (h5 : s.host.enc = t.host.enc) (h6 : s.host.dec = t.host.dec) : s = t := by
  obtain ⟨a, b, c, d, e, f⟩ := s
  obtain ⟨a', b', c', d', e', f'⟩ := t
  simp_all

theorem ready_congr {p : Port} {s₁ s₂ : State} (hw : s₁.wasReset = s₂.wasReset) (ho : outq p s₁ = outq p s₂) :
    cmdReady p s₁ = cmdReady p s₂ := by simp [cmdReady, hasRoom, hw, ho]

theorem enabled_congr_enc {m : Move} {s u : State} (hm : m.port = some .enc) (hw : s.wasReset = u.wasReset) (he : s.enc = u.enc) :
    enabled m s = enabled m u := by
  cases m with
  | cmd p w => cases hm; exact ready_congr hw (by simp [he])
  | pop p => cases hm; simp [enabled, outValid, idle, hw, he]
  | readIdle p => exact hw
  | reset => rfl

theorem enabled_congr_dec {m : Move} {s u : State} (hm : m.port = some .dec) (hw : s.wasReset = u.wasReset) (he : s.dec = u.dec) :
    enabled m s = enabled m u := by
  cases m with
  | cmd p w => cases hm; exact ready_congr hw (by simp [he])
  | pop p => cases hm; simp [enabled, outValid, idle, hw, he]
  | readIdle p => exact hw
  | reset => rfl

theorem outq_pop (p : Port) (s : State) : outq p (popUnit p s) = (outq p s).tail := by
  cases p
  · exact (popUnit_enc_spec s).2.1
  · exact (popUnit_dec_spec s).2.1

theorem wasReset_pop (p : Port) (s : State) : (popUnit p s).wasReset = s.wasReset := by
  cases p
  · exact (popUnit_enc_spec s).2.2.2.2.2.2.2.2.1
  · exact (popUnit_dec_spec s).2.2.2.2.2.2.2.2.1

end Sys2Proof.Machine
end

