-- ==== Sys2Proof/Laws/PerInstr.lean ====
section
/-! SUPPORT. Families of statements about each command as syntax, one lemma per constructor. -/

namespace Sys2Proof.Laws.Encoding

open Sys2Proof

/-- Bit 8 of a command's word is 1 exactly when the command is the `END` of its port (30_encoding.md R60, R64). -/
def Statement (i : Instr) : Prop :=
  (encode i).getLsbD 8 = true ↔ mnemonic i = "ENC.END" ∨ mnemonic i = "DEC.END"

theorem encData (b : Byte) : Statement (.encData b) := by
  revert b; unfold Statement; decide

theorem encEnd : Statement .encEnd := by
  unfold Statement; decide

theorem decData (c : Byte) : Statement (.decData c) := by
  revert c; unfold Statement; decide

theorem decEnd : Statement .decEnd := by
  unfold Statement; decide

end Sys2Proof.Laws.Encoding

namespace Sys2Proof.Laws.Port

open Sys2Proof

/-- Every command is well-formed on exactly one port, its own (30_encoding.md R64). -/
def Statement (i : Instr) : Prop := ∀ p : Sys2Proof.Port, wellFormedOn p i = true ↔ p = i.port

theorem encData (b : Byte) : Statement (.encData b) := by
  intro p; cases p <;> simp [wellFormedOn, Instr.port]

theorem encEnd : Statement .encEnd := by
  intro p; cases p <;> simp [wellFormedOn, Instr.port]

theorem decData (c : Byte) : Statement (.decData c) := by
  intro p; cases p <;> simp [wellFormedOn, Instr.port]

theorem decEnd : Statement .decEnd := by
  intro p; cases p <;> simp [wellFormedOn, Instr.port]

end Sys2Proof.Laws.Port
end

