-- ==== Sys2Proof/Laws/Port.lean ====
section
/-! SUPPORT. The port level: the host's duty, lists of transactions, and everything an edge without reset can do. -/

namespace Sys2Proof.Machine

open Sys2Proof

theorem dutyKept_iff (u : UnitIn) (t : UnitTiming) : dutyKept u t = true ↔ ∀ w, t.offer = some w → u.cmdValid = true ∧ u.cmdData = w := by
  cases h : t.offer <;> simp [dutyKept, h]

theorem edge_cases {i : PortIn} {ps qs : PortState} (hw : ps.core.wasReset = true) (hr : i.rst = false) (h : edge i ps = .next qs) :
    (dutyKept i.enc ps.enc && dutyKept i.dec ps.dec) = true ∧ performList (edgeMoves i ps) ps.core = .next qs.core ∧
    qs.enc = nextTiming .enc i ps qs.core.enc.outq.length ∧ qs.dec = nextTiming .dec i ps qs.core.dec.outq.length ∧ qs.cycle = ps.cycle + 1 := by
  simp only [edge, hr, hw, if_true, Bool.false_eq_true, if_false] at h
  split at h
  · rename_i hd
    simp only [transferEdge] at h
    split at h
    · rename_i t ht; cases h; exact ⟨hd, ht, rfl, rfl, rfl⟩
    · cases h
    · cases h
  · cases h

theorem performList_append {l l' : List Move} {s t : State} : performList (l ++ l') s = .next t ↔ ∃ u, performList l s = .next u ∧ performList l' u = .next t := by
  induction l generalizing s with
  | nil => simp [performList]
  | cons m l ih =>
    simp only [List.cons_append, performList]
    cases perform m s with
    | next u => simp [ih]
    | fault f => simp
    | refused r => simp

theorem performList_stage {c : Bool} {m : Move} {s t : State} (h : performList (if c = true then [m] else []) s = .next t) :
    (c = true ∧ perform m s = .next t) ∨ (c = false ∧ t = s) := by
  cases c
  · simp [performList] at h; exact .inr ⟨rfl, h.symm⟩
  · simp only [if_true, performList] at h
    cases hp : perform m s with
    | next u => rw [hp] at h; cases h; exact .inl ⟨rfl, rfl⟩
    | fault f => exact nomatch f
    | refused r => rw [hp] at h; cases h

end Sys2Proof.Machine
end

