-- ==== Sys2Proof/Tests/Slice0.lean ====
section
/-! SUPPORT. Tests and witnesses. Expected values are those of spec/95_test_vectors.md (the vector is named at each test) or
were worked out by hand from the rule named. A theorem `witness_<Name>` shows that the hypotheses of the statement `<Name>` can
be met together, clause by clause. -/

namespace Sys2Proof.Tests

open Sys2Proof Sys2Proof.Machine

/-! ## Helpers -/

/-- The reset state with another encoder phase and residue. -/
def encAt (q : BitVec 2) (r : BitVec 4) : State := { State.reset with enc := ⟨q, r, []⟩ }

/-- The reset state with another decoder phase and residue. -/
def decAt (q : BitVec 2) (r : BitVec 6) : State := { State.reset with dec := ⟨q, r, []⟩ }

/-- Both units in the middle of a call, with nothing queued, and a host that has popped what they appended. -/
def midCall : State :=
  { enc := ⟨1, 0b01, []⟩
    dec := ⟨2, 0b0110, []⟩
    wasReset := true
    host := { script := [], enc := ⟨[0x54], [], [true]⟩, dec := ⟨[0x4D], [], []⟩ } }

/-- One value queued in each unit. -/
def queued : State :=
  { enc := ⟨1, 0b01, [0x54]⟩
    dec := ⟨2, 0b0110, [0x4D]⟩
    wasReset := true
    host := { script := [], enc := Record.empty, dec := Record.empty } }

/-- Queues filled past the room a command needs, whatever the depths. -/
def full : State :=
  { State.reset with
    enc := ⟨0, 0, List.replicate (Config.encSpare + 1) 0x41⟩
    dec := ⟨0, 0, List.replicate (Config.decSpare + 1) 0x00⟩ }

/-- What an outcome leaves of the encoder, if it is a next state. -/
def encOf : Outcome → Option EncState
  | .next s => some s.enc
  | .fault _ => none
  | .refused _ => none

/-- What an outcome leaves of the decoder, if it is a next state. -/
def decOf : Outcome → Option DecState
  | .next s => some s.dec
  | .fault _ => none
  | .refused _ => none

/-! ## Well-formedness and decoding -/

/-- 30_encoding.md R64: a decoder command does not stand on the encoder port. -/
theorem test_decoder_command_ill_formed_on_encoder_port :
    wellFormedOn .enc (.decData 0x41) = false ∧ wellFormedOn .enc .decEnd = false := by decide

/-- 30_encoding.md R64: an encoder command does not stand on the decoder port. -/
theorem test_encoder_command_ill_formed_on_decoder_port :
    wellFormedOn .dec (.encData 0x41) = false ∧ wellFormedOn .dec .encEnd = false := by decide

/-- R64, `ENC.DATA`: `0dddddddd`. The byte is asymmetric, so a reversed or shifted field shows. -/
theorem test_decode_encData_bits : decode .enc 0b010010110 = .encData 0x96 := by decide

/-- R64, `ENC.END`: `1xxxxxxxx`; V16, `0x1A5`. -/
theorem test_decode_encEnd_bits : decode .enc 0b110100101 = .encEnd := by decide

/-- R64, `DEC.DATA`: `0cccccccc`. -/
theorem test_decode_decData_bits : decode .dec 0b001010100 = .decData 0x54 := by decide

/-- R64, `DEC.END`: `1xxxxxxxx`; V16, `0x13D`: bit 8 decides, it is no padding character. -/
theorem test_decode_decEnd_bits : decode .dec 0b100111101 = .decEnd := by decide

/-- R60, R62, R72: the words this spec writes for the commands. -/
theorem test_encode_words :
    encode (.encData 0x4D) = 0x04D ∧ encode .encEnd = 0x100 ∧ encode (.decData 0x3D) = 0x03D ∧ encode .decEnd = 0x100 := by
  decide

/-- A number that is no 9-bit word is rejected (log entry 3). -/
theorem test_table_word_out_of_range : decodeTableWord 16 0x200 = none ∧ decodeTableWordOn .dec 0x200 = none := by decide

/-- Log entry 3: a table word is read on the encoder port, and by `decodeTableWordOn` on either. -/
theorem test_table_word_ports :
    decodeTableWord 9 0x04D = some (.encData 0x4D) ∧ decodeTableWordOn .dec 0x04D = some (.decData 0x4D) := by decide

/-! ## The alphabet -/

/-- V7. -/
theorem test_symbolOf_boundaries :
    symbolOf 0 = 0x41 ∧ symbolOf 25 = 0x5A ∧ symbolOf 26 = 0x61 ∧ symbolOf 51 = 0x7A ∧ symbolOf 52 = 0x30
      ∧ symbolOf 61 = 0x39 ∧ symbolOf 62 = 0x2B ∧ symbolOf 63 = 0x2F := by decide

/-- V8, the valid codes at the ends of the ranges. -/
theorem test_indexOf_boundaries :
    indexOf 0x2B = ⟨true, 62⟩ ∧ indexOf 0x2F = ⟨true, 63⟩ ∧ indexOf 0x30 = ⟨true, 52⟩ ∧ indexOf 0x39 = ⟨true, 61⟩
      ∧ indexOf 0x41 = ⟨true, 0⟩ ∧ indexOf 0x5A = ⟨true, 25⟩ ∧ indexOf 0x61 = ⟨true, 26⟩ ∧ indexOf 0x7A = ⟨true, 51⟩ := by
  decide

/-- V8, the invalid neighbours. -/
theorem test_indexOf_invalid :
    ∀ c ∈ [0x00, 0x0A, 0x20, 0x2A, 0x2C, 0x2D, 0x2E, 0x3A, 0x3D, 0x40, 0x5B, 0x5F, 0x60, 0x7B, 0x80, 0xC1, (0xFF : Byte)],
      indexOf c = ⟨false, 0⟩ := by decide

/-! ## One step of each command -/

/-- V9: phase 1, residue `10`, byte 0x0F. -/
theorem test_encData_phase_one : encOf (exec (.encData 0x0F) (encAt 1 0b10)) = some ⟨2, 0b1111, [0x67]⟩ := by rfl

/-- V9: phase 2, residue `1010`, byte 0x55. -/
theorem test_encData_phase_two : encOf (exec (.encData 0x55) (encAt 2 0b1010)) = some ⟨0, 0, [0x70, 0x56]⟩ := by rfl

/-- V10: phase 1, residue `11`. -/
theorem test_encEnd_phase_one : encOf (exec .encEnd (encAt 1 0b11)) = some ⟨0, 0, [0x77, 0x3D, 0x3D]⟩ := by rfl

/-- V10: phase 2, residue `1000`. -/
theorem test_encEnd_phase_two : encOf (exec .encEnd (encAt 2 0b1000)) = some ⟨0, 0, [0x67, 0x3D]⟩ := by rfl

/-- V12: phase 1 after `T`, code `W`; phase 3, code `u`. -/
theorem test_decData_joins :
    decOf (exec (.decData 0x57) (decAt 1 0b010011)) = some ⟨2, 0b0110, [0x4D]⟩
      ∧ decOf (exec (.decData 0x75) (decAt 3 0b01)) = some ⟨0, 0, [0x6E]⟩ := ⟨rfl, rfl⟩

/-- V12: a foreign code in the middle of a group changes nothing. -/
theorem test_decData_foreign : exec (.decData 0x0A) (decAt 2 0b0110) = .next (decAt 2 0b0110) := by rfl

/-- V13: phases 1, 2 and 3 discard 6, 4 and 2 bits and append nothing. -/
theorem test_decEnd_discards :
    decOf (exec .decEnd (decAt 1 0b010011)) = some ⟨0, 0, []⟩ ∧ decOf (exec .decEnd (decAt 2 0b0001)) = some ⟨0, 0, []⟩
      ∧ decOf (exec .decEnd (decAt 3 0b10)) = some ⟨0, 0, []⟩ := ⟨rfl, rfl, rfl⟩

/-- V17, step 3: reset in the middle of two calls, with values queued. -/
theorem test_reset_mid_call : encOf (perform .reset queued) = some ⟨0, 0, []⟩ ∧ decOf (perform .reset queued) = some ⟨0, 0, []⟩ :=
  ⟨rfl, rfl⟩

/-- The fetch of a placed word: the very next step runs it. -/
theorem test_placed_word_runs : encOf (step (State.reset.withFetchWord 9 0x04D)) = some ⟨1, 0b01, [0x54]⟩ := by rfl

/-- R160, R170: nothing to do, nothing happens. -/
theorem test_empty_script : step State.reset = .next State.reset := by rfl

/-! ## The reference functions -/

/-- V1 to V4. -/
theorem test_refEncode_scenarios :
    refEncode [0x4D, 0x61, 0x6E] = [0x54, 0x57, 0x46, 0x75] ∧ refEncode [0x4D, 0x61] = [0x54, 0x57, 0x45, 0x3D]
      ∧ refEncode [0x4D] = [0x54, 0x51, 0x3D, 0x3D] ∧ refEncode [] = [] := by decide

/-- V11: `[0x14, 0xFB, 0x9C, 0x03, 0xD9, 0x7E]` is "FPucA9l+". -/
theorem test_refEncode_two_groups :
    refEncode [0x14, 0xFB, 0x9C, 0x03, 0xD9, 0x7E] = [0x46, 0x50, 0x75, 0x63, 0x41, 0x39, 0x6C, 0x2B] := by decide

/-- V5, V6, and V14 "TR==" and "T". -/
theorem test_refDecode_scenarios :
    refDecode [0x54, 0x57, 0x46, 0x75] = [0x4D, 0x61, 0x6E] ∧ refDecode [0x54, 0x57, 0x45, 0x3D] = [0x4D, 0x61]
      ∧ refDecode [0x54, 0x52, 0x3D, 0x3D] = [0x4D] ∧ refDecode [0x54] = [] := by decide

/-- V14: "TQ==TWFu", padding in the middle dropped. -/
theorem test_refDecode_inner_padding :
    refDecode [0x54, 0x51, 0x3D, 0x3D, 0x54, 0x57, 0x46, 0x75] = [0x4D, 0x04, 0xD6, 0x16] := by decide

/-! ## Witnesses: words and the step -/

theorem witness_EveryWordMatchesOneRow :
    ∃ r ∈ opcodeMap, r.matchesWord .dec 0x04D = true ∧ r.mnemonic = "DEC.DATA" := ⟨opcodeMap[2], by decide, by decide, rfl⟩

theorem witness_WordFieldsSelectCommand :
    (0x0FF : CmdWord).getLsbD 8 = false ∧ (0x100 : CmdWord).getLsbD 8 = true := by decide

theorem witness_DecodeEncodeAgree :
    wellFormedOn .enc (.encData 0xFF) = true ∧ wellFormedOn .enc .encEnd = true ∧ wellFormedOn .dec (.decData 0x00) = true
      ∧ wellFormedOn .dec .decEnd = true := by decide

theorem witness_EndIgnoresItsDataField :
    (cmdReady .enc midCall = true ∧ ∃ t, perform (.cmd .enc (packWord 1 0x3D)) midCall = .next t)
      ∧ cmdReady .dec midCall = true ∧ ∃ t, perform (.cmd .dec (packWord 1 0xFF)) midCall = .next t :=
  ⟨⟨rfl, _, rfl⟩, rfl, _, rfl⟩

/-- A full unit accepts no command, whatever the depths. -/
theorem full_not_ready (p : Port) : cmdReady p full = false := by
  cases p <;> simp [cmdReady, hasRoom, full, Config.mostOutputs, Config.outDepth, Config.encOutDepth, Config.decOutDepth]

theorem witness_StepRunsDecodedCommand :
    ((midCall.setScript [.cmd .dec 0x046]).host.script = .cmd .dec 0x046 :: [] ∧ cmdReady .dec (midCall.setScript [.cmd .dec 0x046]) = true)
      ∧ ((State.powerOn.setScript [.cmd .enc 0x100]).host.script = .cmd .enc 0x100 :: []
        ∧ (State.powerOn.setScript [.cmd .enc 0x100]).wasReset = false)
      ∧ ((full.setScript [.cmd .enc 0x04D]).host.script = .cmd .enc 0x04D :: [] ∧ (full.setScript [.cmd .enc 0x04D]).wasReset = true
        ∧ cmdReady .enc (full.setScript [.cmd .enc 0x04D]) = false) :=
  ⟨⟨rfl, rfl⟩, ⟨rfl, rfl⟩, rfl, rfl, full_not_ready .enc⟩

theorem witness_PlacedWordRunsNext :
    decodeTableWord 9 0x1FF = some .encEnd ∧ decodeTableWord 9 0x000 = some (.encData 0x00) ∧ cmdReady .enc midCall = true := by
  refine ⟨by decide, by decide, rfl⟩

/-- V18: one call of the encoder that pops as it goes, so that it runs whatever the depth. -/
def callMa : List Move :=
  [.cmd .enc 0x04D, .pop .enc, .cmd .enc 0x061, .readIdle .enc, .pop .enc, .cmd .enc 0x100, .pop .enc, .pop .enc]

/-- V6: "TWE=" as one call of the decoder, with a newline in the middle, popping as it goes. -/
def callTWE : List Move :=
  [.cmd .dec 0x054, .cmd .dec 0x00A, .cmd .dec 0x057, .pop .dec, .cmd .dec 0x045, .pop .dec, .cmd .dec 0x03D, .cmd .dec 0x100]

/-- The same without the newline and the padding symbol. -/
def callTWEBare : List Move :=
  [.cmd .dec 0x054, .cmd .dec 0x057, .pop .dec, .cmd .dec 0x045, .pop .dec, .cmd .dec 0x100]

theorem witness_ScriptRunsAsTransactions : ∃ t, runMoves callMa State.reset = some t := ⟨_, rfl⟩

theorem witness_LookupsAreInverse : (indexOf 0x7A).valid = true ∧ (indexOf 0x2B).valid = true := by decide

/-! ## Witnesses: the encoder -/

theorem witness_EncDataCompletes :
    ∀ q ∈ [0, 1, 2], (encAt q 0).wasReset = true ∧ (encAt q 0).enc.outq.length ≤ Config.encOutDepth - 3 ∧ (encAt q 0).enc.phase = q :=
  fun _ _ => ⟨rfl, Nat.zero_le _, rfl⟩

theorem witness_EncEndCompletes :
    ∀ q ∈ [0, 1, (2 : BitVec 2)], (encAt q 0).wasReset = true ∧ (encAt q 0).enc.phase ≠ 3 ∧ (encAt q 0).enc.phase = q
      ∧ (encAt q 0).enc.outq.length ≤ Config.encOutDepth - 3 := by
  intro q hq
  refine ⟨rfl, ?_, rfl, Nat.zero_le _⟩
  revert q; decide

theorem witness_EncPhaseThreeHasNoMeaning :
    Instr.port (.encData 0x4D) = .enc ∧ Instr.port .encEnd = .enc ∧ cmdReady .enc (encAt 3 0) = true ∧ (encAt 3 0).enc.phase = 3
      ∧ cmdReady .enc (encAt 2 0) = true := ⟨rfl, rfl, rfl, rfl, rfl⟩

theorem witness_EncOutputsPerCommand :
    cmdReady .enc (encAt 0 0) = true ∧ cmdReady .enc (encAt 1 0) = true ∧ cmdReady .enc (encAt 2 0) = true
      ∧ (0 : BitVec 2) ≠ 3 ∧ (1 : BitVec 2) ≠ 3 ∧ (2 : BitVec 2) ≠ 3 := ⟨rfl, rfl, rfl, by decide, by decide, by decide⟩

theorem witness_EncCommandsFrame :
    (∃ t, exec (.encData 0x61) midCall = .next t) ∧ (∃ t, exec .encEnd midCall = .next t) ∧ exec .encEnd full = .next full
      ∧ cmdReady .enc midCall = true ∧ cmdReady .enc full = false := by
  refine ⟨⟨_, rfl⟩, ⟨_, rfl⟩, ?_, rfl, full_not_ready _⟩
  exact exec_full rfl (full_not_ready _)

/-- The transactions of `callMa` before its `END`, with a decoder command in between. -/
def feedMa : List Move := [.cmd .enc 0x04D, .pop .enc, .cmd .dec 0x054, .cmd .enc 0x061, .pop .enc]

theorem witness_EncInvariantWithinCall :
    (∃ t, runMoves feedMa State.reset = some t) ∧ State.reset.enc.betweenCalls ∧ Move.reset ∉ feedMa
      ∧ commandsOn .enc feedMa = [0x4D, 0x61].map .encData := ⟨⟨_, rfl⟩, by decide, by decide, by decide⟩

theorem witness_EncCallIsEncode :
    (∃ t, runMoves callMa State.reset = some t ∧ idle .enc t = true) ∧ State.reset.enc.betweenCalls ∧ Move.reset ∉ callMa
      ∧ commandsOn .enc callMa = [0x4D, 0x61].map .encData ++ [.encEnd] := ⟨⟨_, rfl, rfl⟩, by decide, by decide, by decide⟩

theorem witness_EncOutputsAreNeverTakenBack :
    (∃ t, runMoves feedMa State.reset = some t) ∧ State.reset.enc.betweenCalls ∧ Move.reset ∉ feedMa
      ∧ commandsOn .enc feedMa = [0x4D, 0x61].map .encData := witness_EncInvariantWithinCall

theorem witness_EncodePaddingLaw :
    ([0x4D, 0x61, 0x6E] : List Byte).length % 3 = 0 ∧ ([0x4D] : List Byte).length % 3 = 1
      ∧ ([0x4D, 0x61] : List Byte).length % 3 = 2 := by decide

/-- `midCall` is legal. -/
theorem midCall_inv : midCall.Inv := by
  refine ⟨by decide, by decide, fun _ => ⟨⟨by decide, by decide, Nat.zero_le _⟩, ⟨by decide, Nat.zero_le _⟩, ?_, ?_⟩⟩ <;> decide

/-- After one complete call on each unit, with the records that leaves. -/
def afterCalls : State :=
  { enc := ⟨0, 0, []⟩
    dec := ⟨0, 0, []⟩
    wasReset := true
    host := { script := [], enc := ⟨[0x54, 0x51, 0x3D, 0x3D], [⟨.ended, 4⟩], []⟩, dec := ⟨[0x4D], [⟨.ended, 1⟩], []⟩ } }

theorem afterCalls_inv : afterCalls.Inv := by
  refine ⟨by decide, by decide, fun _ => ⟨⟨by decide, by decide, Nat.zero_le _⟩, ⟨by decide, Nat.zero_le _⟩, ?_, ?_⟩⟩ <;> decide

theorem witness_EncCallCanBeCompleted :
    afterCalls.Inv ∧ afterCalls.wasReset = true ∧ afterCalls.enc.betweenCalls ∧ afterCalls.enc.outq = [] :=
  ⟨afterCalls_inv, rfl, by decide, rfl⟩

theorem witness_MissingEndMergesCalls :
    ([0x4D, 0x61, 0x6E] : List Byte).length % 3 = 0 ∧ ([0x4D] : List Byte).length % 3 ≠ 0 ∧ ([0x4D, 0x61] : List Byte) ≠ [] := by decide

/-! ## Witnesses: the decoder -/

theorem witness_DecDataCompletes :
    (∀ q ∈ [0, 1, 2, 3], (decAt q 0).wasReset = true ∧ (decAt q 0).dec.outq.length ≤ Config.decOutDepth - 1 ∧ (decAt q 0).dec.phase = q)
      ∧ indexOf 0x54 = ⟨true, 19⟩ ∧ (indexOf 0x3D).valid = false :=
  ⟨fun _ _ => ⟨rfl, Nat.zero_le _, rfl⟩, by decide, by decide⟩

theorem witness_DecEndCompletes : (decAt 3 0b10).wasReset = true ∧ (decAt 3 0b10).dec.outq.length ≤ Config.decOutDepth - 1 :=
  ⟨rfl, Nat.zero_le _⟩

theorem witness_DecCommandsFrame :
    (∃ t, exec (.decData 0x46) midCall = .next t) ∧ (∃ t, exec .decEnd midCall = .next t) ∧ exec .decEnd full = .next full
      ∧ cmdReady .dec midCall = true ∧ cmdReady .dec full = false := by
  refine ⟨⟨_, rfl⟩, ⟨_, rfl⟩, ?_, rfl, full_not_ready _⟩
  exact exec_full rfl (full_not_ready _)

/-- The transactions of `callTWE` before its `END`. -/
def feedTWE : List Move := callTWE.dropLast

theorem witness_DecInvariantWithinCall :
    (∃ t, runMoves feedTWE State.reset = some t) ∧ State.reset.dec.betweenCalls ∧ Move.reset ∉ feedTWE
      ∧ commandsOn .dec feedTWE = [0x54, 0x0A, 0x57, 0x45, 0x3D].map .decData := ⟨⟨_, rfl⟩, by decide, by decide, by decide⟩

theorem witness_DecCallIsDecode :
    (∃ t, runMoves callTWE State.reset = some t ∧ idle .dec t = true) ∧ State.reset.dec.betweenCalls ∧ Move.reset ∉ callTWE
      ∧ commandsOn .dec callTWE = [0x54, 0x0A, 0x57, 0x45, 0x3D].map .decData ++ [.decEnd] :=
  ⟨⟨_, rfl, rfl⟩, by decide, by decide, by decide⟩

theorem witness_DecodeLengthLaw :
    (surviving [0x54, 0x57, 0x46, 0x75]).length = 4 * 1 + 0 ∧ (surviving [0x54]).length = 4 * 0 + 1
      ∧ (surviving [0x54, 0x51, 0x3D]).length = 4 * 0 + 2 ∧ (surviving [0x54, 0x57, 0x45]).length = 4 * 0 + 3 := by decide

theorem witness_ForeignCodesDoNotMatter :
    (∃ t t', runMoves feedTWE State.reset = some t ∧ runMoves callTWEBare.dropLast State.reset = some t')
      ∧ Move.reset ∉ feedTWE ∧ Move.reset ∉ callTWEBare.dropLast
      ∧ commandsOn .dec feedTWE = [0x54, 0x0A, 0x57, 0x45, 0x3D].map .decData
      ∧ commandsOn .dec callTWEBare.dropLast = [0x54, 0x57, 0x45].map .decData
      ∧ ([0x54, 0x0A, 0x57, 0x45, 0x3D].filter fun c => (indexOf c).valid) = [0x54, 0x57, 0x45].filter fun c => (indexOf c).valid :=
  ⟨⟨_, _, rfl, rfl⟩, by decide, by decide, by decide, by decide, by decide⟩

/-- V6 without the newline. -/
def callTWEPlain : List Move :=
  [.cmd .dec 0x054, .cmd .dec 0x057, .pop .dec, .cmd .dec 0x045, .pop .dec, .cmd .dec 0x03D, .cmd .dec 0x100]

theorem witness_RoundTripThroughBothUnits :
    (∃ t, runMoves callMa State.reset = some t
        ∧ t.host.enc.popped ++ t.enc.outq = State.reset.host.enc.popped ++ State.reset.enc.outq ++ [0x54, 0x57, 0x45, 0x3D])
      ∧ State.reset.enc.betweenCalls ∧ Move.reset ∉ callMa
      ∧ commandsOn .enc callMa = [0x4D, 0x61].map .encData ++ [.encEnd]
      ∧ (∃ t', runMoves callTWEPlain afterCalls = some t') ∧ afterCalls.dec.betweenCalls ∧ Move.reset ∉ callTWEPlain
      ∧ commandsOn .dec callTWEPlain = [0x54, 0x57, 0x45, 0x3D].map .decData ++ [.decEnd] :=
  ⟨⟨_, rfl, rfl⟩, by decide, by decide, by decide, ⟨_, rfl⟩, by decide, by decide, by decide⟩

theorem witness_DecCallCanBeCompleted :
    afterCalls.Inv ∧ afterCalls.wasReset = true ∧ afterCalls.dec.betweenCalls ∧ afterCalls.dec.outq = [] :=
  ⟨afterCalls_inv, rfl, by decide, rfl⟩

/-! ## Witnesses: output, waiting and order -/

theorem witness_PopDeliversTheHead :
    queued.wasReset = true ∧ queued.enc.outq = 0x54 :: [] ∧ queued.dec.outq = 0x4D :: [] := ⟨rfl, rfl, rfl⟩

/-- An input of quiet signals: no reset, nothing offered, nothing taken. -/
def quiet : PortIn := { rst := false, enc := ⟨false, 0, false⟩, dec := ⟨false, 0, false⟩ }

/-- A port state over `s` with no delay and no stall, every queued value visible. -/
def portAt (s : State) : PortState :=
  { core := s
    enc := ⟨List.replicate s.enc.outq.length 0, 0, 0, none⟩
    dec := ⟨List.replicate s.dec.outq.length 0, 0, 0, none⟩
    cycle := 7 }

theorem witness_IdleReadHasNoSideEffect :
    queued.wasReset = true ∧ State.powerOn.wasReset = false ∧ Port.enc ≠ Port.dec ∧ quiet.rst = false
      ∧ (portAt queued).core.wasReset = true := ⟨rfl, rfl, by decide, rfl, rfl⟩

theorem witness_EnabledExactlyWhenRoom :
    midCall.wasReset = true ∧ enabled (.cmd .enc 0x100) midCall = true ∧ enabled (.pop .enc) midCall = false
      ∧ enabled (.cmd .enc 0x100) full = false ∧ enabled (.cmd .dec 0x000) full = false :=
  ⟨rfl, rfl, rfl, full_not_ready _, full_not_ready _⟩

theorem witness_DisabledTransactionStaysStuck :
    ((midCall.setScript [.pop .enc]).host.script = .pop .enc :: [] ∧ (midCall.setScript [.pop .enc]).wasReset = true
        ∧ enabled (.pop .enc) (midCall.setScript [.pop .enc]) = false)
      ∧ (full.setScript [.cmd .dec 0x041]).host.script = .cmd .dec 0x041 :: [] ∧ (full.setScript [.cmd .dec 0x041]).wasReset = true
      ∧ enabled (.cmd .dec 0x041) (full.setScript [.cmd .dec 0x041]) = false :=
  ⟨⟨rfl, rfl, rfl⟩, rfl, rfl, full_not_ready .dec⟩

theorem witness_OutputsAreFirstInFirstOut :
    (enabled (.pop .enc) queued = true ∧ ∃ t, perform (.pop .enc) queued = .next t)
      ∧ (enabled (.cmd .dec 0x046) midCall = true ∧ ∃ t, perform (.cmd .dec 0x046) midCall = .next t) :=
  ⟨⟨rfl, _, rfl⟩, rfl, _, rfl⟩

theorem witness_UnitsShareNoState :
    (midCall.wasReset = { midCall with dec := DecState.reset }.wasReset ∧ (∃ t, perform (.cmd .enc 0x061) midCall = .next t)
        ∧ midCall.enc = { midCall with dec := DecState.reset }.enc ∧ midCall.host.enc = { midCall with dec := DecState.reset }.host.enc)
      ∧ (∃ t, perform (.cmd .dec 0x046) midCall = .next t)
      ∧ midCall.dec = { midCall with enc := EncState.reset }.dec ∧ midCall.host.dec = { midCall with enc := EncState.reset }.host.dec :=
  ⟨⟨rfl, ⟨_, rfl⟩, rfl, rfl⟩, ⟨_, rfl⟩, rfl, rfl⟩

/-- Transactions of both units and a reset, interleaved. -/
def interleaved : List Move :=
  [.cmd .enc 0x04D, .cmd .dec 0x054, .pop .enc, .reset, .cmd .dec 0x054, .cmd .enc 0x0FF, .cmd .dec 0x057, .pop .enc, .pop .dec]

theorem witness_InterleavingDoesNotMatter : ∃ t, runMoves interleaved midCall = some t := ⟨_, rfl⟩

theorem witness_SimultaneousTransfersCommute :
    (enabled (.cmd .enc 0x061) midCall = true ∧ enabled (.cmd .dec 0x046) midCall = true
        ∧ (Move.cmd .enc 0x061).port = some .enc ∧ (Move.cmd .dec 0x046).port = some .dec)
      ∧ (4 ≤ Config.encOutDepth → enabled (.pop .enc) queued = true ∧ enabled (.cmd .enc 0x061) queued = true) := by
  refine ⟨⟨rfl, rfl, rfl, rfl⟩, fun h => ⟨rfl, ?_⟩⟩
  exact (cmdReady_iff _ _).2 ⟨rfl, h⟩

/-! ## Witnesses: reset and invariants -/

theorem witness_NothingHappensBeforeReset : State.powerOn.wasReset = false := rfl

theorem witness_StepKeepsInv :
    (midCall.setScript [.cmd .enc 0x061]).Inv ∧ ∃ t, step (midCall.setScript [.cmd .enc 0x061]) = .next t :=
  ⟨midCall_inv, _, rfl⟩

theorem witness_StepKeepsEncoderOutputCodes :
    (queued.setScript [.pop .enc]).encOutputsLegal ∧ ∃ t, step (queued.setScript [.pop .enc]) = .next t := by
  refine ⟨fun _ v hv => .inl ⟨19, ?_⟩, _, rfl⟩
  simp [queued] at hv
  subst hv; decide

theorem witness_NothingFaultsAfterReset : midCall.Inv ∧ midCall.wasReset = true := ⟨midCall_inv, rfl⟩

/-! ## Witnesses: complete calls -/

/-- Two encoder calls back to back, "M" and then an empty one, popping as it goes. -/
def twoCalls : List Move := [.cmd .enc 0x04D, .pop .enc, .cmd .enc 0x100, .pop .enc, .pop .enc, .pop .enc, .cmd .enc 0x100]

theorem witness_CompleteEncoderCallsObserved :
    (∃ t, runMoves twoCalls State.reset = some t ∧ idle .enc t = true) ∧ Move.reset ∉ twoCalls ∧ State.reset.enc.betweenCalls
      ∧ State.reset.enc.outq = [] ∧ State.reset.host.enc.popped = [] ∧ State.reset.host.enc.bounds = []
      ∧ commandsOn .enc twoCalls = [[0x4D], []].flatMap (fun B => B.map .encData ++ [.encEnd]) :=
  ⟨⟨_, rfl, rfl⟩, by decide, by decide, rfl, rfl, rfl, by decide⟩

theorem witness_CompleteDecoderCallsObserved :
    (∃ t, runMoves (callTWEBare ++ [.cmd .dec 0x100]) State.reset = some t ∧ idle .dec t = true)
      ∧ Move.reset ∉ callTWEBare ++ [.cmd .dec 0x100] ∧ State.reset.dec.betweenCalls
      ∧ State.reset.dec.outq = [] ∧ State.reset.host.dec.popped = [] ∧ State.reset.host.dec.bounds = []
      ∧ commandsOn .dec (callTWEBare ++ [.cmd .dec 0x100])
        = [[0x54, 0x57, 0x45], []].flatMap (fun T => T.map .decData ++ [.decEnd]) :=
  ⟨⟨_, rfl, rfl⟩, by decide, by decide, rfl, rfl, rfl, by decide⟩

/-- Two encoder calls "M" and "" closed, with one of the four values of the first popped (R193, by hand). -/
def undrained : Record := ⟨[0x54], [⟨.ended, 4⟩, ⟨.ended, 4⟩], []⟩

/-- R193: a call that appended nothing is complete at its `END`, even behind a call whose values are still queued. -/
theorem test_empty_call_complete_when_undrained : undrained.completeCalls = [[]] := by decide

/-- R181, R193: a reset loses the rest of the first call and keeps the empty call complete. -/
theorem test_reset_keeps_empty_call_complete :
    undrained.abandon.bounds = [⟨.abandoned, 1⟩, ⟨.ended, 1⟩, ⟨.abandoned, 1⟩] ∧ undrained.abandon.completeCalls = [[]] := by decide

/-- One encoder call, an empty one, and the beginning of a third, with one value of the third undelivered. -/
def callsAndMore : List Move := twoCalls ++ [.cmd .enc 0x04D]

theorem witness_EncoderCallsCompleteWhenDelivered :
    (∃ t, runMoves callsAndMore State.reset = some t) ∧ Move.reset ∉ callsAndMore ∧ State.reset.enc.betweenCalls
      ∧ State.reset.enc.outq = [] ∧ State.reset.host.enc.popped = [] ∧ State.reset.host.enc.bounds = []
      ∧ commandsOn .enc callsAndMore = [[0x4D], []].flatMap (fun B => B.map .encData ++ [.encEnd]) ++ [0x4D].map .encData :=
  ⟨⟨_, rfl⟩, by decide, by decide, rfl, rfl, rfl, by decide⟩

/-- The decoder call "T", which appends nothing, and the beginning of another. -/
def callT : List Move := [.cmd .dec 0x054, .cmd .dec 0x100, .cmd .dec 0x054, .cmd .dec 0x057]

theorem witness_DecoderCallsCompleteWhenDelivered :
    (∃ t, runMoves callT State.reset = some t) ∧ Move.reset ∉ callT ∧ State.reset.dec.betweenCalls
      ∧ State.reset.dec.outq = [] ∧ State.reset.host.dec.popped = [] ∧ State.reset.host.dec.bounds = []
      ∧ commandsOn .dec callT = [[0x54]].flatMap (fun T => T.map .decData ++ [.decEnd]) ++ [0x54, 0x57].map .decData :=
  ⟨⟨_, rfl⟩, by decide, by decide, rfl, rfl, rfl, by decide⟩

theorem witness_ResetKeepsCompleteCalls : afterCalls.Inv ∧ ∃ t, perform .reset afterCalls = .next t := ⟨afterCalls_inv, _, rfl⟩

/-! ## Witnesses: the port level -/

/-- An edge at which the host offers a command to each unit and takes from each. -/
def busy : PortIn := { rst := false, enc := ⟨true, 0x061, true⟩, dec := ⟨true, 0x046, true⟩ }

/-- R67: at that edge, with empty queues and ready units, both commands are transferred and no value is. -/
theorem test_edge_transfers : edgeMoves busy (portAt midCall) = [.cmd .enc 0x061, .cmd .dec 0x046] := by rfl

theorem witness_EdgeIsItsTransactions :
    (portAt midCall).core.wasReset = true ∧ busy.rst = false ∧ (∃ qs, edge busy (portAt midCall) = .next qs)
      ∧ [Move.cmd .dec 0x046, .cmd .enc 0x061].Perm (edgeMoves busy (portAt midCall)) :=
  ⟨rfl, rfl, ⟨_, rfl⟩, List.Perm.swap _ _ _⟩

/-- Log entry 19: at an edge with reset the host may withdraw a held command, and the offer is gone afterwards. -/
theorem test_reset_edge_clears_the_offer :
    ∃ qs, edge { quiet with rst := true } { portAt midCall with enc := ⟨[], 0, 3, some 0x061⟩ } = .next qs ∧ qs.enc.offer = none :=
  ⟨_, rfl, rfl⟩

theorem witness_ResetWinsOverTransfers : { busy with rst := true }.rst = true ∧ quiet.rst = false := ⟨rfl, rfl⟩

/-- A port state in which the host has offered `ENC.DATA 0x61` and was not served. -/
def offering : PortState := { portAt midCall with enc := ⟨[], 0, 3, some 0x061⟩ }

theorem witness_OnlyBrokenDutyIsRefused :
    offering.core.wasReset = true ∧ quiet.rst = false ∧ busy.rst = false
      ∧ ((offering.timing .enc).offer = some 0x061 ∧ ¬ ((quiet.unit .enc).cmdValid = true ∧ (quiet.unit .enc).cmdData = 0x061))
      ∧ offering.core.Inv
      ∧ ∀ p w, (offering.timing p).offer = some w → (busy.unit p).cmdValid = true ∧ (busy.unit p).cmdData = w := by
  refine ⟨rfl, rfl, rfl, ⟨rfl, by decide⟩, midCall_inv, fun p w h => ?_⟩
  cases p
  · cases h; exact ⟨rfl, rfl⟩
  · cases h

theorem witness_OfferedOutputIsHeld :
    (portAt queued).core.wasReset = true ∧ quiet.rst = false ∧ (unitOut .enc quiet (portAt queued)).outValid = true
      ∧ (unitOut .dec quiet (portAt queued)).outValid = true ∧ (quiet.unit .enc).outReady = false
      ∧ ∃ qs, edge quiet (portAt queued) = .next qs := ⟨rfl, rfl, rfl, rfl, rfl, _, rfl⟩

theorem portAt_inv (s : State) : (portAt s).Inv := by
  intro _
  constructor <;> exact ⟨by simp [portAt], fun n hn => by simp [portAt] at hn; omega, by simp [portAt, List.pairwise_replicate]⟩

theorem witness_EdgeKeepsPortInv : (portAt queued).Inv ∧ ∃ qs, edge quiet (portAt queued) = .next qs := ⟨portAt_inv _, _, rfl⟩

/-- A host that offers nothing and takes nothing may go on so for any number of edges. -/
theorem quiet_runs (n : Nat) : ∀ ps : PortState, ps.core.wasReset = true → ps.enc.offer = none → ps.dec.offer = none →
    ∃ qs, runEdges (List.replicate n quiet) ps = .next qs := by
  induction n with
  | zero => exact fun ps _ _ _ => ⟨ps, rfl⟩
  | succ n ih =>
    intro ps hw he hd
    have hm : edgeMoves quiet ps = [] := by simp [edgeMoves, outTransfer, cmdTransfer, PortIn.unit, quiet]
    have h : ∃ qs, edge quiet ps = .next qs ∧ qs.core.wasReset = true ∧ qs.enc.offer = none ∧ qs.dec.offer = none := by
      refine ⟨{ ps with enc := nextTiming .enc quiet ps ps.core.enc.outq.length
                        dec := nextTiming .dec quiet ps ps.core.dec.outq.length
                        cycle := ps.cycle + 1 }, ?_, hw, rfl, rfl⟩
      simp only [edge, hw, dutyKept, he, hd, transferEdge, hm, performList]
      rfl
    obtain ⟨qs, h1, h2, h3, h4⟩ := h
    obtain ⟨rs, h5⟩ := ih qs h2 h3 h4
    exact ⟨rs, by simp only [List.replicate_succ, runEdges, h1, h5]⟩

theorem witness_OutputIsOfferedAfterLatency :
    (portAt queued).Inv ∧ (portAt queued).core.wasReset = true ∧ outq .enc (portAt queued).core ≠ [] ∧ outq .dec (portAt queued).core ≠ []
      ∧ (∀ i ∈ List.replicate Config.latency quiet, i.rst = false ∧ (i.unit .enc).outReady = false ∧ (i.unit .dec).outReady = false)
      ∧ Config.latency ≤ (List.replicate Config.latency quiet).length
      ∧ ∃ qs, runEdges (List.replicate Config.latency quiet) (portAt queued) = .next qs := by
  refine ⟨portAt_inv _, rfl, by decide, by decide, fun i hi => ?_, by simp, quiet_runs _ _ rfl rfl rfl⟩
  rw [List.eq_of_mem_replicate hi]; exact ⟨rfl, rfl, rfl⟩

theorem witness_ReadyWithinFinitelyManyEdges (n : Nat) :
    cmdReady .enc (portAt midCall).core = true ∧ cmdReady .dec (portAt midCall).core = true
      ∧ (List.replicate n quiet).length = n ∧ (∀ i ∈ List.replicate n quiet, i.rst = false)
      ∧ ∃ qs, runEdges (List.replicate n quiet) (portAt midCall) = .next qs := by
  refine ⟨rfl, rfl, by simp, fun i hi => ?_, quiet_runs _ _ rfl rfl rfl⟩
  rw [List.eq_of_mem_replicate hi]; rfl

end Sys2Proof.Tests
end

section
/-! SUPPORT. The host's script and its transactions (00_scope.md R5, R6; log entry 1): a step performs the script's head. -/

namespace Sys2Proof.Machine

open Sys2Proof

/-- A step performs an enabled transaction at the head of the script and takes it off. -/
theorem step_setScript_cons {m : Move} {s u : State} (rest : List Move) (he : enabled m s = true)
    (hp : perform m s = .next u) : step (s.setScript (m :: rest)) = .next (u.setScript rest) := by
  have hw : waits m (s.setScript (m :: rest)) = false := by simp [waits, he]
  calc step (s.setScript (m :: rest))
      = performNext m rest (s.setScript (m :: rest)) := rfl
    _ = perform m (s.setScript rest) := by simp [performNext, hw]
    _ = .next (u.setScript rest) := perform_setScript rest hp

/-- Settles O8, by induction on the transactions: the first one is the machine's first step, whatever stands after it in
the script. -/
theorem scriptRunsAsTransactions : Obligations.ScriptRunsAsTransactions := by
  intro s t ms rest h
  induction ms generalizing s with
  | nil => cases h; rfl
  | cons m ms ih =>
    obtain ⟨he, u, hp, hu⟩ := runMoves_cons.1 h
    have hstep := step_setScript_cons (ms ++ rest) he hp
    exact (core_run_succ hstep ms.length).trans (ih u hu)

end Sys2Proof.Machine
end

section
/-! SUPPORT. The invariant (10_state.md R20 to R26, R30, R31): it holds at reset and at power-on, each transaction keeps a
legal state legal, and a step is one transaction or nothing. -/

namespace Sys2Proof.Machine

open Sys2Proof

/-- A legal machine meets the invariant, reset or not: its records are in order. -/
theorem State.legal.inv {s : State} (h : s.legal) : s.Inv := by
  obtain ⟨-, -, ⟨hencSorted, -⟩, ⟨hdecSorted, -⟩⟩ := id h
  exact ⟨hencSorted, hdecSorted, fun _ => h⟩

/-- The script plays no part in the invariant. -/
theorem inv_setScript {s : State} (ms : List Move) (h : s.Inv) : (s.setScript ms).Inv := h

theorem Record.empty_legal (n : Nat) : Record.empty.legal n := ⟨List.Pairwise.nil, by simp [Record.empty]⟩

theorem EncState.reset_legal : EncState.reset.legal := ⟨by decide, by decide, Nat.zero_le _⟩

theorem DecState.reset_legal : DecState.reset.legal := ⟨by decide, Nat.zero_le _⟩

/-- Settles O46: the machine after reset is legal, and at power-on the invariant asks only for a record in order. -/
theorem invAtReset : Obligations.InvAtReset := by
  have hreset : State.reset.legal :=
    ⟨EncState.reset_legal, DecState.reset_legal, Record.empty_legal 0, Record.empty_legal 0⟩
  exact ⟨hreset.inv, List.Pairwise.nil, List.Pairwise.nil, fun hw => Bool.noConfusion hw⟩

/-- A new encoder unit that keeps all that was queued leaves the machine legal. -/
theorem setEnc_legal {s : State} {e : EncState} (hs : s.legal) (he : e.legal)
    (hq : s.enc.outq.length ≤ e.outq.length) : (s.setEnc e).legal := by
  obtain ⟨-, hdec, hencRec, hdecRec⟩ := hs
  exact ⟨he, hdec, legal_mono hencRec rfl (Nat.add_le_add_left hq _), hdecRec⟩

/-- A new decoder unit that keeps all that was queued leaves the machine legal. -/
theorem setDec_legal {s : State} {d : DecState} (hs : s.legal) (hd : d.legal)
    (hq : s.dec.outq.length ≤ d.outq.length) : (s.setDec d).legal := by
  obtain ⟨henc, -, hencRec, hdecRec⟩ := hs
  exact ⟨henc, hd, hencRec, legal_mono hdecRec rfl (Nat.add_le_add_left hq _)⟩

theorem closeEncCall_legal {s : State} (hs : s.legal) : (closeEncCall s).legal := by
  obtain ⟨henc, hdec, hencRec, hdecRec⟩ := hs
  exact ⟨henc, hdec, close_legal hencRec (le_refl _), hdecRec⟩

theorem closeDecCall_legal {s : State} (hs : s.legal) : (closeDecCall s).legal := by
  obtain ⟨henc, hdec, hencRec, hdecRec⟩ := hs
  exact ⟨henc, hdec, hencRec, close_legal hdecRec (le_refl _)⟩

/-- An encoder command appends at most the three values that its acceptance needs room for (30_encoding.md R69). -/
theorem setEnc_legal_of_ready {s : State} {e : EncState} (hs : s.legal) (hr : cmdReady .enc s = true)
    (he : e.phase ≠ 3 ∧ e.res.toNat < 2 ^ encWidth e.phase ∧ e.outq.length ≤ s.enc.outq.length + 3
      ∧ s.enc.outq.length ≤ e.outq.length) : (s.setEnc e).legal := by
  obtain ⟨hphase, hres, hmost, hkept⟩ := he
  have hroom : s.enc.outq.length + 3 ≤ Config.encOutDepth := ((cmdReady_iff .enc s).1 hr).2
  exact setEnc_legal hs ⟨hphase, hres, hmost.trans hroom⟩ hkept

/-- A decoder `DATA` appends at most the one byte that its acceptance needs room for (30_encoding.md R69). -/
theorem setDec_decData_legal {s : State} (c : Byte) (hs : s.legal) (hr : cmdReady .dec s = true) :
    (s.setDec (decDataUnit c s.dec)).legal := by
  obtain ⟨vs, hvs, hq⟩ := decData_append c s.dec
  have hlen : (decDataUnit c s.dec).outq.length = s.dec.outq.length + vs.length := by rw [hq, List.length_append]
  have hroom : s.dec.outq.length + 1 ≤ Config.decOutDepth := ((cmdReady_iff .dec s).1 hr).2
  obtain ⟨-, ⟨hres, -⟩, -, -⟩ := id hs
  exact setDec_legal hs ⟨decData_legal c hres, by omega⟩ (by omega)

theorem setDec_decEnd_legal {s : State} (hs : s.legal) : (s.setDec (decEndUnit s.dec)).legal := by
  obtain ⟨-, ⟨-, hlen⟩, -, -⟩ := id hs
  exact setDec_legal hs ⟨(by decide : (0 : BitVec 6).toNat < 2 ^ decWidth 0), hlen⟩ (le_refl _)

/-- A command keeps a legal state legal. -/
theorem exec_keeps_legal {i : Instr} {s t : State} (hs : s.legal) (h : exec i s = .next t) : t.legal := by
  obtain ⟨-, ⟨-, rfl⟩ | ⟨hr, ⟨b, e, rfl, hu, rfl⟩ | ⟨e, rfl, hu, rfl⟩ | ⟨c, rfl, rfl⟩ | ⟨rfl, rfl⟩⟩⟩ :=
    exec_next_cases h
  · exact hs
  · exact setEnc_legal_of_ready hs hr (encData_legal hu)
  · exact closeEncCall_legal (setEnc_legal_of_ready hs hr (encEnd_legal hu))
  · exact setDec_decData_legal c hs hr
  · exact closeDecCall_legal (setDec_decEnd_legal hs)

/-- A pop moves a value from the queue to the values popped, so the record's call ends still lie among the two. -/
theorem popUnit_keeps_legal (p : Port) {s : State} (hs : s.legal) : (popUnit p s).legal := by
  obtain ⟨⟨hphase, hres, hencLen⟩, ⟨hdecRes, hdecLen⟩, hencRec, hdecRec⟩ := id hs
  cases p with
  | enc =>
    cases hq : s.enc.outq with
    | nil => rwa [popUnit_enc_nil hq]
    | cons v q =>
      rw [hq, List.length_cons] at hencLen hencRec
      rw [popUnit_enc_cons hq]
      exact ⟨⟨hphase, hres, by simp; omega⟩, ⟨hdecRes, hdecLen⟩, legal_mono hencRec rfl (by simp; omega), hdecRec⟩
  | dec =>
    cases hq : s.dec.outq with
    | nil => rwa [popUnit_dec_nil hq]
    | cons v q =>
      rw [hq, List.length_cons] at hdecLen hdecRec
      rw [popUnit_dec_cons hq]
      exact ⟨⟨hphase, hres, hencLen⟩, ⟨hdecRes, by simp; omega⟩, hencRec, legal_mono hdecRec rfl (by simp; omega)⟩

/-- A read of the idle status changes no call end and no value popped. -/
theorem sawIdle_keeps_legal (p : Port) (b : Bool) {s : State} (hs : s.legal) :
    (s.setRecord p ((s.record p).sawIdle b)).legal := by
  cases p <;> exact hs

/-- A reset makes the machine legal, whatever the block held before it: it needs only a record in order. -/
theorem resetBlock_legal {s : State} (hs : s.Inv) : (resetBlock s).legal := by
  obtain ⟨hencSorted, hdecSorted, -⟩ := hs
  exact ⟨EncState.reset_legal, DecState.reset_legal, abandon_legal hencSorted, abandon_legal hdecSorted⟩

/-- A transaction leaves the machine legal: before the first reset only a reset happens. -/
theorem perform_legal_of_inv {m : Move} {s t : State} (hs : s.Inv) (h : perform m s = .next t) : t.legal := by
  obtain ⟨-, -, hlegal⟩ := id hs
  obtain ⟨p, w, rfl, hx⟩ | ⟨p, rfl, hw, rfl⟩ | ⟨p, rfl, hw, rfl⟩ | ⟨rfl, rfl⟩ := perform_next_cases h
  · exact exec_keeps_legal (hlegal (exec_next_cases hx).1) hx
  · exact popUnit_keeps_legal p (hlegal hw)
  · exact sawIdle_keeps_legal p _ (hlegal hw)
  · exact resetBlock_legal hs

/-- Settles O45: a step leaves the state as it is or performs the script's head. -/
theorem stepKeepsInv : Obligations.StepKeepsInv := by
  intro s t hs h
  obtain ⟨-, hn⟩ | ⟨m, rest, -, ⟨-, -, hn⟩ | ⟨-, hp⟩⟩ := step_cases s
  · cases hn.symm.trans h; exact hs
  · cases hn.symm.trans h; exact hs
  · exact (perform_legal_of_inv (inv_setScript rest hs) (hp.symm.trans h)).inv

end Sys2Proof.Machine
end

section
/-! SUPPORT. Which state a command or transaction leaves alone (10_state.md R29; 20_memory.md R48, R49), and that the units
share none: a transaction of one unit gives the same unit and the same record whatever the rest of the machine holds. -/

namespace Sys2Proof.Machine

open Sys2Proof

/-- `ENC.DATA` only appends to the encoder's queue. -/
theorem encDataUnit_append {b : Byte} {e e' : EncState} (h : encDataUnit b e = some e') :
    ∃ vs, e'.outq = e.outq ++ vs := by
  obtain ⟨e₁, W, h₁, -, -, -, -, -, hq⟩ := encDataUnit_spec b e (encDataUnit_phase_ne h)
  cases h.symm.trans h₁
  exact ⟨_, hq⟩

/-- `ENC.END` only appends to the encoder's queue. -/
theorem encEndUnit_append {e e' : EncState} (h : encEndUnit e = some e') : ∃ vs, e'.outq = e.outq ++ vs := by
  obtain ⟨e₁, h₁, -, hq⟩ := encEndUnit_spec e (encEndUnit_phase_ne h)
  cases h.symm.trans h₁
  exact ⟨_, hq⟩

/-- Settles O16: a command that waits leaves everything, `ENC.DATA` writes the encoder alone, and `ENC.END` also closes the
call in its record. -/
theorem encCommandsFrame : Obligations.EncCommandsFrame := by
  intro s t i hi h
  obtain ⟨-, ⟨hn, rfl⟩ | ⟨hr, ⟨b, e, rfl, hu, rfl⟩ | ⟨e, rfl, hu, rfl⟩ | ⟨c, rfl, -⟩ | ⟨rfl, -⟩⟩⟩ := exec_next_cases h
  · rw [hi] at hn
    exact ⟨rfl, rfl, rfl, rfl, rfl, rfl, ⟨[], by simp⟩, by simp [hn]⟩
  · exact ⟨rfl, rfl, rfl, rfl, rfl, rfl, encDataUnit_append hu, by simp⟩
  · exact ⟨rfl, rfl, rfl, rfl, rfl, rfl, encEndUnit_append hu, (if_pos ⟨rfl, hr⟩).symm⟩
  · cases hi
  · cases hi

/-- Settles O26: a command that waits leaves everything, `DEC.DATA` writes the decoder alone, and `DEC.END` also closes the
call in its record. -/
theorem decCommandsFrame : Obligations.DecCommandsFrame := by
  intro s t i hi h
  obtain ⟨-, ⟨hn, rfl⟩ | ⟨hr, ⟨b, e, rfl, -⟩ | ⟨e, rfl, -⟩ | ⟨c, rfl, rfl⟩ | ⟨rfl, rfl⟩⟩⟩ := exec_next_cases h
  · rw [hi] at hn
    exact ⟨rfl, rfl, rfl, rfl, rfl, rfl, ⟨[], by simp⟩, by simp [hn]⟩
  · cases hi
  · cases hi
  · exact ⟨rfl, rfl, rfl, rfl, rfl, rfl, decData_append c s.dec, by simp⟩
  · exact ⟨rfl, rfl, rfl, rfl, rfl, rfl, ⟨[], by simp, (List.append_nil _).symm⟩, (if_pos ⟨rfl, hr⟩).symm⟩

/-- The machine `u` with one unit, that unit's record and the reset flag taken from `s`: what a transaction of the unit may
look at comes from `s`, everything else from `u`. -/
def State.withUnitOf (u : State) (p : Port) (s : State) : State :=
  match p with
  | .enc => { u with enc := s.enc, wasReset := s.wasReset, host := { u.host with enc := s.host.enc } }
  | .dec => { u with dec := s.dec, wasReset := s.wasReset, host := { u.host with dec := s.host.dec } }

@[simp] theorem State.withUnitOf_wasReset (u : State) (p : Port) (s : State) :
    (u.withUnitOf p s).wasReset = s.wasReset := by cases p <;> rfl

@[simp] theorem State.outq_withUnitOf (u : State) (p : Port) (s : State) :
    outq p (u.withUnitOf p s) = outq p s := by cases p <;> rfl

@[simp] theorem State.record_withUnitOf (u : State) (p : Port) (s : State) :
    (u.withUnitOf p s).record p = s.record p := by cases p <;> rfl

@[simp] theorem State.withUnitOf_setRecord (u : State) (p : Port) (s : State) (r : Record) :
    (u.withUnitOf p s).setRecord p r = u.withUnitOf p (s.setRecord p r) := by cases p <;> rfl

@[simp] theorem State.withUnitOf_self (s : State) (p : Port) : s.withUnitOf p s = s := by cases p <;> rfl

theorem State.withUnitOf_enc_eq {u s : State} (hw : s.wasReset = u.wasReset) (he : s.enc = u.enc)
    (hr : s.host.enc = u.host.enc) : u.withUnitOf .enc s = u := state_ext he rfl hw rfl hr rfl

theorem State.withUnitOf_dec_eq {u s : State} (hw : s.wasReset = u.wasReset) (hd : s.dec = u.dec)
    (hr : s.host.dec = u.host.dec) : u.withUnitOf .dec s = u := state_ext rfl hd hw rfl rfl hr

/-- A command reads and writes its own unit, that unit's record and the reset flag only. -/
theorem exec_withUnitOf {i : Instr} {s t : State} (u : State) (h : exec i s = .next t) :
    exec i (u.withUnitOf i.port s) = .next (u.withUnitOf i.port t) := by
  have hready : cmdReady i.port (u.withUnitOf i.port s) = cmdReady i.port s := ready_congr (by simp) (by simp)
  obtain ⟨hw, ⟨hn, rfl⟩ | ⟨hr, ⟨b, e, rfl, hu, rfl⟩ | ⟨e, rfl, hu, rfl⟩ | ⟨c, rfl, rfl⟩ | ⟨rfl, rfl⟩⟩⟩ :=
    exec_next_cases h
  · exact exec_full (by simpa using hw) (hready.trans hn)
  · exact (exec_encData_eq_next (hready.trans hr)).2 ⟨e, hu, rfl⟩
  · exact (exec_encEnd_eq_next (hready.trans hr)).2 ⟨e, hu, rfl⟩
  · exact exec_decData_ready (hready.trans hr)
  · exact exec_decEnd_ready (hready.trans hr)

/-- A pop reads and writes its own unit and that unit's record only. -/
theorem popUnit_withUnitOf (p : Port) (u s : State) :
    popUnit p (u.withUnitOf p s) = u.withUnitOf p (popUnit p s) := by
  have hsame := State.outq_withUnitOf u p s
  cases p with
  | enc =>
    cases hq : s.enc.outq with
    | nil => rw [popUnit_enc_nil hq, popUnit_enc_nil (hsame.trans hq)]
    | cons v q => rw [popUnit_enc_cons hq, popUnit_enc_cons (hsame.trans hq)]; rfl
  | dec =>
    cases hq : s.dec.outq with
    | nil => rw [popUnit_dec_nil hq, popUnit_dec_nil (hsame.trans hq)]
    | cons v q => rw [popUnit_dec_cons hq, popUnit_dec_cons (hsame.trans hq)]; rfl

/-- A transaction of a unit reads and writes that unit, its record and the reset flag only (R29). -/
theorem perform_withUnitOf {m : Move} {p : Port} {s t : State} (u : State) (hm : m.port = some p)
    (h : perform m s = .next t) : perform m (u.withUnitOf p s) = .next (u.withUnitOf p t) := by
  obtain ⟨q, w, rfl, hx⟩ | ⟨q, rfl, hw, rfl⟩ | ⟨q, rfl, hw, rfl⟩ | ⟨rfl, rfl⟩ := perform_next_cases h
  · cases hm
    have hu := exec_withUnitOf u hx
    rwa [decode_port] at hu
  · cases hm
    exact execPop_eq_next.2 ⟨by simpa using hw, (popUnit_withUnitOf p u s).symm⟩
  · cases hm
    exact execReadIdle_eq_next.2 ⟨by simpa using hw, by simp [idle]⟩
  · cases hm

/-- What a transaction of a unit leaves of the machine: all but the unit, its record and the reset flag. -/
theorem perform_frame {m : Move} {p : Port} {s t : State} (hm : m.port = some p) (h : perform m s = .next t) :
    t = s.withUnitOf p t := by
  have hself := perform_withUnitOf s hm h
  rw [State.withUnitOf_self] at hself
  exact Host.Outcome.next.inj (h.symm.trans hself)

/-- Settles O39: the second state is itself with the first one's unit put in, so the transaction does there what it did in
the first. -/
theorem unitsShareNoState : Obligations.UnitsShareNoState := by
  intro s₁ s₂ t₁ m hw h
  constructor
  · intro hm he hr
    have h₂ := perform_withUnitOf s₂ hm h
    rw [State.withUnitOf_enc_eq hw he hr] at h₂
    have hframe := perform_frame hm h
    exact ⟨_, h₂, rfl, rfl, (congrArg State.dec hframe :), (congrArg (·.host.dec) hframe :), rfl, rfl⟩
  · intro hm hd hr
    have h₂ := perform_withUnitOf s₂ hm h
    rw [State.withUnitOf_dec_eq hw hd hr] at h₂
    have hframe := perform_frame hm h
    exact ⟨_, h₂, rfl, rfl, (congrArg State.enc hframe :), (congrArg (·.host.enc) hframe :), rfl, rfl⟩

end Sys2Proof.Machine
end

section
/-! SUPPORT. Refusals, idle reads and reset: when an encoder command has no case (10_state.md R21, R31), what a read of the
idle status answers (R27), and what a reset leaves (R30; 70_reset_and_hazards.md R184). -/

namespace Sys2Proof.Machine

open Sys2Proof

theorem encDataUnit_eq_none_iff (b : Byte) (e : EncState) : encDataUnit b e = none ↔ e.phase = 3 := by
  constructor
  · intro hnone
    by_contra hp
    obtain ⟨e', -, hsome, -⟩ := encDataUnit_spec b e hp
    cases hnone.symm.trans hsome
  · intro hp
    simp [encDataUnit, hp]

theorem encEndUnit_eq_none_iff (e : EncState) : encEndUnit e = none ↔ e.phase = 3 := by
  constructor
  · intro hnone
    by_contra hp
    obtain ⟨e', hsome, -⟩ := encEndUnit_spec e hp
    cases hnone.symm.trans hsome
  · intro hp
    simp [encEndUnit, hp]

theorem commitEnc_eq_refused_iff (s : State) (e : Option EncState) :
    commitEnc s e = .refused .phaseUnspecified ↔ e = none := by
  cases e <;> simp [commitEnc]

theorem encEndAccepted_eq_refused_iff (s : State) :
    encEndAccepted s = .refused .phaseUnspecified ↔ encEndUnit s.enc = none := by
  unfold encEndAccepted
  cases encEndUnit s.enc <;> simp

/-- An accepted `ENC.DATA` commits what its rule gives (R103). -/
theorem exec_encData_ready {b : Byte} {s : State} (hr : cmdReady .enc s = true) :
    exec (.encData b) s = commitEnc s (encDataUnit b s.enc) := by
  simp [exec, execEncData, acceptCommand_ready _ hr]

/-- An accepted `ENC.END` runs its rule and closes the call (R104). -/
theorem exec_encEnd_ready {s : State} (hr : cmdReady .enc s = true) : exec .encEnd s = encEndAccepted s := by
  simp [exec, execEncEnd, acceptCommand_ready _ hr]

/-- Settles O14: an accepted encoder command is refused exactly when the unit's rule has no case. -/
theorem encPhaseThreeHasNoMeaning : Obligations.EncPhaseThreeHasNoMeaning := by
  intro s i hi hr
  cases i with
  | encData b => rw [exec_encData_ready hr, commitEnc_eq_refused_iff, encDataUnit_eq_none_iff]
  | encEnd => rw [exec_encEnd_ready hr, encEndAccepted_eq_refused_iff, encEndUnit_eq_none_iff]
  | decData c => cases hi
  | decEnd => cases hi

theorem execPop_beforeReset {p : Port} {s : State} (h : s.wasReset = false) :
    execPop p s = .refused .beforeReset := by simp [execPop, h]

theorem execReadIdle_beforeReset {p : Port} {s : State} (h : s.wasReset = false) :
    execReadIdle p s = .refused .beforeReset := by simp [execReadIdle, h]

theorem idle_eq_decide (p : Port) (s : State) : idle p s = decide (outq p s = []) := by
  rw [Bool.eq_iff_iff, idle_iff, decide_eq_true_iff]

/-- After the first reset and while `rst = 0`, the idle output says what an idle read gives. -/
theorem unitOut_idle {p : Port} {i : PortIn} {ps : PortState} (hr : i.rst = false) (hw : ps.core.wasReset = true) :
    (unitOut p i ps).idle = idle p ps.core := by simp [unitOut, idleSignal, hr, hw]

/-- Settles O35: after reset an idle read writes the unit's record alone, before it there is none, and the idle output is
the same function of the state. -/
theorem idleReadHasNoSideEffect : Obligations.IdleReadHasNoSideEffect := by
  refine ⟨fun s p hw => ?_, fun s p hw => execReadIdle_beforeReset hw, fun i ps p hr hw => ?_⟩
  · refine ⟨_, execReadIdle_eq_next.2 ⟨hw, rfl⟩, by simp, by simp, by simp, by simp, ?_, by simp, by simp,
      fun q hq => State.record_setRecord_of_ne s _ hq⟩
    rw [State.record_setRecord, Record.sawIdle_idleReads, idle_eq_decide]
  · rw [unitOut_idle hr hw, idle_iff]

/-- Settles O43: each field of `State.reset` is the value R30 gives, and an empty queue is idle. -/
theorem resetStateHoldsResetValues : Obligations.ResetStateHoldsResetValues :=
  ⟨rfl, rfl, State.reset_wasReset, (idle_iff .enc _).2 rfl, (idle_iff .dec _).2 rfl, State.reset_host_script⟩

/-- Every queue has room for the most that one command of its port appends. -/
theorem mostOutputs_le_outDepth (p : Port) : Config.mostOutputs p ≤ Config.outDepth p := by
  cases p with
  | enc => exact Nat.le_add_left 3 Config.encSpare
  | dec => exact Nat.le_add_left 1 Config.decSpare

theorem outq_resetBlock (p : Port) (s : State) : outq p (resetBlock s) = [] := by cases p <;> rfl

/-- Right after a reset both units are ready for a command: their queues are empty (70_reset_and_hazards.md R184). -/
theorem cmdReady_resetBlock (p : Port) (s : State) : cmdReady p (resetBlock s) = true := by
  rw [cmdReady_iff, outq_resetBlock, List.length_nil, Nat.zero_add]
  exact ⟨resetBlock_wasReset s, mostOutputs_le_outDepth p⟩

/-- Settles O44: the flag refuses commands and pops, and a reset leaves both units ready. -/
theorem nothingHappensBeforeReset : Obligations.NothingHappensBeforeReset :=
  ⟨fun _ _ _ hw => ⟨exec_beforeReset hw, execPop_beforeReset hw⟩,
    fun s p => ⟨resetBlock s, rfl, cmdReady_resetBlock p s⟩⟩

end Sys2Proof.Machine
end

section
/-! SUPPORT. Every interleaving gives each unit the same (20_memory.md R51): a transaction of the other unit changes nothing
that a unit can see, so a run with those transactions left out does to the unit what the whole run does. -/

namespace Sys2Proof.Machine

open Sys2Proof

/-- Only a reset writes the reset flag. -/
theorem perform_keeps_wasReset {m : Move} {s t : State} (hr : m ≠ .reset) (h : perform m s = .next t) :
    t.wasReset = s.wasReset := by
  obtain ⟨p, w, rfl, hx⟩ | ⟨p, rfl, -, rfl⟩ | ⟨p, rfl, -, rfl⟩ | ⟨rfl, -⟩ := perform_next_cases h
  · cases p with
    | enc =>
      obtain ⟨-, hw, -⟩ := encCommandsFrame s t _ (decode_port .enc w) hx
      exact hw
    | dec =>
      obtain ⟨-, hw, -⟩ := decCommandsFrame s t _ (decode_port .dec w) hx
      exact hw
  · exact wasReset_pop p s
  · exact State.setRecord_wasReset s p _
  · exact absurd rfl hr

/-- Whether a transaction of a unit is enabled depends on that unit's queue and the reset flag only. -/
theorem enabled_withUnitOf {m : Move} {p : Port} (u s : State) (hm : m.port = some p) :
    enabled m (u.withUnitOf p s) = enabled m s := by
  cases m with
  | cmd q w => cases hm; exact ready_congr (by simp) (by simp)
  | pop q => cases hm; simp [enabled, outValid, idle]
  | readIdle q => simp [enabled]
  | reset => cases hm

/-- A reset resets each unit whatever the other holds. -/
theorem resetBlock_withUnitOf (p : Port) (u s : State) :
    resetBlock (u.withUnitOf p s) = (resetBlock u).withUnitOf p (resetBlock s) := by cases p <;> rfl

/-- A unit sees nothing of what a transaction does to the other unit. -/
theorem State.withUnitOf_withUnitOf_of_ne {p q : Port} (u s t : State) (h : q ≠ p) (hw : t.wasReset = s.wasReset) :
    u.withUnitOf p (s.withUnitOf q t) = u.withUnitOf p s := by
  cases p with
  | enc =>
    cases q with
    | enc => exact absurd rfl h
    | dec => simp [State.withUnitOf, hw]
  | dec =>
    cases q with
    | enc => simp [State.withUnitOf, hw]
    | dec => exact absurd rfl h

theorem move_eq_reset_of_port {m : Move} (h : m.port = none) : m = .reset := by
  cases m with
  | reset => rfl
  | cmd p w => cases h
  | pop p => cases h
  | readIdle p => cases h

theorem movesOf_cons_own {p : Port} {m : Move} (h : m.port = some p) (ms : List Move) :
    movesOf p (m :: ms) = m :: movesOf p ms := by simp [movesOf, h]

theorem movesOf_cons_reset (p : Port) (ms : List Move) : movesOf p (.reset :: ms) = .reset :: movesOf p ms := by
  simp [movesOf]

theorem movesOf_cons_foreign {p q : Port} {m : Move} (h : m.port = some q) (hq : q ≠ p) (ms : List Move) :
    movesOf p (m :: ms) = movesOf p ms := by
  have hm : m ≠ .reset := fun e => by cases e; cases h
  simp [movesOf, h, hq, hm]

/-- Leaving the other unit's transactions out of a run changes nothing for the unit, whatever the rest of the machine holds. -/
theorem runMoves_movesOf (p : Port) {ms : List Move} {s t : State} (u : State) (h : runMoves ms s = some t) :
    ∃ v : State, runMoves (movesOf p ms) (u.withUnitOf p s) = some (v.withUnitOf p t) := by
  induction ms generalizing s u with
  | nil => cases h; exact ⟨u, rfl⟩
  | cons m ms ih =>
    obtain ⟨he, s', hp, ht⟩ := runMoves_cons.1 h
    cases hm : m.port with
    | none =>
      cases move_eq_reset_of_port hm
      cases hp
      obtain ⟨v, hv⟩ := ih (resetBlock u) ht
      rw [← resetBlock_withUnitOf] at hv
      rw [movesOf_cons_reset]
      exact ⟨v, runMoves_cons.2 ⟨rfl, _, rfl, hv⟩⟩
    | some q =>
      by_cases hq : q = p
      · subst hq
        obtain ⟨v, hv⟩ := ih u ht
        rw [movesOf_cons_own hm]
        exact ⟨v, runMoves_cons.2 ⟨(enabled_withUnitOf u s hm).trans he, _, perform_withUnitOf u hm hp, hv⟩⟩
      · have hw : s'.wasReset = s.wasReset := perform_keeps_wasReset (fun e => by cases e; cases hm) hp
        have hsame : u.withUnitOf p s' = u.withUnitOf p s := by
          rw [perform_frame hm hp, State.withUnitOf_withUnitOf_of_ne u s s' hq hw]
        rw [movesOf_cons_foreign hm hq, ← hsame]
        exact ih u ht

/-- Settles O40, for each unit by leaving the other unit's transactions out of the run one after another. -/
theorem interleavingDoesNotMatter : Obligations.InterleavingDoesNotMatter := by
  intro s t ms h
  obtain ⟨u, hu⟩ := runMoves_movesOf .enc s h
  obtain ⟨v, hv⟩ := runMoves_movesOf .dec s h
  rw [State.withUnitOf_self] at hu hv
  exact ⟨⟨_, hu, rfl, rfl⟩, _, hv, rfl, rfl⟩

end Sys2Proof.Machine
end

section
/-! SUPPORT. What a unit has output, popped or still queued (20_memory.md R50): a transaction only appends to it. -/

namespace Sys2Proof.Machine

open Sys2Proof

/-- Every value a unit has output, first to last: those popped, then those still queued. -/
def State.outputs (s : State) (p : Port) : List Byte := (s.record p).popped ++ outq p s

theorem State.outputs_enc (s : State) : s.outputs .enc = s.encTotal.outq := rfl

theorem State.outputs_dec (s : State) : s.outputs .dec = s.decTotal.outq := rfl

/-- An idle unit has had all its outputs popped (10_state.md R27). -/
theorem State.outputs_of_idle {s : State} {p : Port} (h : idle p s = true) : s.outputs p = (s.record p).popped := by
  rw [State.outputs, (idle_iff p s).1 h, List.append_nil]

/-- A command of the other unit leaves a unit's record and queue as they were. -/
theorem exec_foreign {i : Instr} {p : Port} {s t : State} (hp : i.port ≠ p) (h : exec i s = .next t) :
    t.record p = s.record p ∧ outq p t = outq p s := by
  cases p with
  | enc =>
    cases hi : i.port with
    | enc => exact absurd hi hp
    | dec =>
      obtain ⟨henc, -, -, hrec, -⟩ := decCommandsFrame s t i hi h
      exact ⟨hrec, congrArg EncState.outq henc⟩
  | dec =>
    cases hi : i.port with
    | enc =>
      obtain ⟨hdec, -, -, hrec, -⟩ := encCommandsFrame s t i hi h
      exact ⟨hrec, congrArg DecState.outq hdec⟩
    | dec => exact absurd hi hp

/-- A command of the unit pops nothing and only appends to the queue. -/
theorem exec_own_outputs {i : Instr} {s t : State} (h : exec i s = .next t) :
    ∃ vs, t.outputs i.port = s.outputs i.port ++ vs := by
  cases hi : i.port with
  | enc =>
    obtain ⟨-, -, -, -, hpopped, -, ⟨vs, hq⟩, -⟩ := encCommandsFrame s t i hi h
    exact ⟨vs, by simp [State.outputs, hpopped, hq]⟩
  | dec =>
    obtain ⟨-, -, -, -, hpopped, -, ⟨vs, -, hq⟩, -⟩ := decCommandsFrame s t i hi h
    exact ⟨vs, by simp [State.outputs, hpopped, hq]⟩

theorem exec_outputs {i : Instr} {s t : State} (p : Port) (h : exec i s = .next t) :
    ∃ vs, t.outputs p = s.outputs p ++ vs := by
  by_cases hp : i.port = p
  · exact hp ▸ exec_own_outputs h
  · obtain ⟨hrec, hq⟩ := exec_foreign hp h
    exact ⟨[], by simp [State.outputs, hrec, hq]⟩

/-- A pop moves a value from the queue to the values popped: the outputs stay the same. -/
theorem popUnit_outputs (q p : Port) (s : State) : (popUnit q s).outputs p = s.outputs p := by
  cases p with
  | enc => exact congrArg EncState.outq (popUnit_encTotal q s)
  | dec => exact congrArg DecState.outq (popUnit_decTotal q s)

/-- An idle read changes no value popped and no queue. -/
theorem readIdle_outputs (q p : Port) (b : Bool) (s : State) :
    (s.setRecord q ((s.record q).sawIdle b)).outputs p = s.outputs p := by
  cases p <;> cases q <;> rfl

/-- Settles O38: a command appends to the outputs of its unit, and a pop or an idle read leaves every unit's as they were. -/
theorem outputsAreFirstInFirstOut : Obligations.OutputsAreFirstInFirstOut := by
  intro s t m p hr _ h
  obtain ⟨q, w, rfl, hx⟩ | ⟨q, rfl, -, rfl⟩ | ⟨q, rfl, -, rfl⟩ | ⟨rfl, -⟩ := perform_next_cases h
  · exact exec_outputs p hx
  · exact ⟨[], (popUnit_outputs q p s).trans (List.append_nil _).symm⟩
  · exact ⟨[], (readIdle_outputs q p _ s).trans (List.append_nil _).symm⟩
  · exact absurd rfl hr

end Sys2Proof.Machine
end

section
/-! SUPPORT. What a whole call does to its unit (41_encoder.md R105, 42_decoder.md R135): the call's commands, run on a unit
between calls, append the value of the document's function. -/

namespace Sys2Proof.Machine

open Sys2Proof

/-- `ENCODE` by a cut of the bit stream into full windows and a rest: the windows' symbols, then what `ENC.END` appends for
the rest (R100, R104). -/
theorem refEncode_of_stream_eq {B : List Byte} {W X : List Bool} (hs : byteStream B = W ++ X) (hd : 6 ∣ W.length)
    (hX : X.length < 6) : refEncode B = encWindows W ++ encTail X := by
  have hlen : 8 * B.length = W.length + X.length := by rw [← byteStream_length, hs, List.length_append]
  have hrest : X.length = 2 * (B.length % 3) := by omega
  have hcut : 6 * (8 * B.length / 6) = W.length := by omega
  have hwindows : windows 6 (fun w => symbolOf (sextetOf w)) (W ++ X) = encWindows W := by
    rw [windows_append (by omega) hd, windows_short hX, List.append_nil, encWindows]
  rw [refEncode_eq, hs, hwindows, hcut, List.drop_left, List.append_assoc]
  congr 1
  by_cases h0 : B.length % 3 = 0
  · simp [encTail, hrest, h0]
  · have hpads : (3 - B.length % 3) % 3 = (6 - X.length) / 2 := by omega
    have hne : X.length ≠ 0 := by omega
    rw [if_neg h0, hpads, encTail, if_neg hne, List.singleton_append]

/-- `DECODE` by a cut of the bit stream into full windows and a rest, which `DEC.END` discards (R130, R134). -/
theorem refDecode_of_stream_eq {T : List Byte} {W X : List Bool} (hs : sextetStream (surviving T) = W ++ X)
    (hd : 8 ∣ W.length) (hX : X.length < 8) : refDecode T = decWindows W := by
  rw [refDecode_eq, hs, windows_append (by omega) hd, windows_short hX, List.append_nil, decWindows]

theorem encWidth_lt_six {q : BitVec 2} (h : q ≠ 3) : encWidth q < 6 := by
  have hlt := q.isLt
  have hne : q.toNat ≠ 3 := fun e => h (BitVec.eq_of_toNat_eq e)
  simp only [encWidth]
  omega

/-- The commands of an encoder call, on a unit between calls, append `ENCODE` of the call and leave the unit between calls. -/
theorem encApplyAll_call {B : List Byte} {e e' : EncState} (hb : e.betweenCalls)
    (h : encApplyAll (B.map .encData ++ [.encEnd]) e = some e') :
    e'.betweenCalls ∧ e'.outq = e.outq ++ refEncode B := by
  obtain ⟨hphase, hres⟩ := id hb
  obtain ⟨e₁, W, hfeed, hp₁, -, -, hs, hd, ho₁⟩ :=
    encFeed_spec B e (by rw [hphase]; decide) (by rw [hphase, hres]; decide)
  obtain ⟨e₂, hend, hb₂, ho₂⟩ := encEndUnit_spec e₁ hp₁
  have he : e₂ = e' := by
    simpa [encApplyAll_append, encApplyAll_data, encApplyAll, encApply, hfeed, hend] using h
  subst he
  rw [encPending_betweenCalls hb, List.nil_append] at hs
  have hX : (encPending e₁).length < 6 := by rw [encPending_length]; exact encWidth_lt_six hp₁
  exact ⟨hb₂, by rw [ho₂, ho₁, refEncode_of_stream_eq hs hd hX, List.append_assoc]⟩

/-- The commands of a decoder call, on a unit between calls, append `DECODE` of the call and leave the unit between calls. -/
theorem decApplyAll_call (T : List Byte) {d : DecState} (hb : d.betweenCalls) :
    (decApplyAll (T.map .decData ++ [.decEnd]) d).betweenCalls
      ∧ (decApplyAll (T.map .decData ++ [.decEnd]) d).outq = d.outq ++ refDecode T := by
  obtain ⟨hphase, hres⟩ := id hb
  obtain ⟨W, -, -, hs, hd, ho⟩ := decFeed_spec T d (by rw [hphase, hres]; decide)
  have hcall : decApplyAll (T.map .decData ++ [.decEnd]) d = decEndUnit (decFeed T d) := by
    rw [decApplyAll_append, decApplyAll_data]; rfl
  rw [decPending_betweenCalls hb, List.nil_append] at hs
  have hX : (decPending (decFeed T d)).length < 8 := by rw [decPending_length]; exact Nat.mod_lt _ (by omega)
  rw [hcall, refDecode_of_stream_eq hs hd hX]
  exact ⟨⟨rfl, rfl⟩, ho⟩

/-- The `DATA` command of a port. -/
def dataOn : Port → Byte → Instr
  | .enc => .encData
  | .dec => .decData

/-- The `END` command of a port. -/
def endOn : Port → Instr
  | .enc => .encEnd
  | .dec => .decEnd

/-- The commands of a call of a port (30_encoding.md R73). -/
def callOn (p : Port) (B : List Byte) : List Instr := B.map (dataOn p) ++ [endOn p]

/-- The document's function for a call of a port: `ENCODE` (R100) or `DECODE` (R130). -/
def refCall : Port → List Byte → List Byte
  | .enc => refEncode
  | .dec => refDecode

/-- A unit of the machine is between calls (10_state.md R30). -/
def State.betweenCalls (s : State) : Port → Prop
  | .enc => s.enc.betweenCalls
  | .dec => s.dec.betweenCalls

@[simp] theorem endOn_port (p : Port) : (endOn p).port = p := by cases p <;> rfl

theorem endOn_not_mem_data (p : Port) (B : List Byte) : endOn p ∉ B.map (dataOn p) := by
  cases p <;> simp [endOn, dataOn]

/-- A run whose commands on a unit are one call appends the value of the document's function to the unit's outputs. -/
theorem runMoves_call_outputs {p : Port} {ms : List Move} {s t : State} {B : List Byte} (h : runMoves ms s = some t)
    (hr : Move.reset ∉ ms) (hb : s.betweenCalls p) (hc : commandsOn p ms = callOn p B) :
    t.betweenCalls p ∧ t.outputs p = s.outputs p ++ refCall p B := by
  cases p with
  | enc =>
    have htotal := runMoves_encTotal h hr
    rw [hc] at htotal
    exact encApplyAll_call (e := s.encTotal) hb htotal
  | dec =>
    have htotal : decApplyAll (B.map .decData ++ [.decEnd]) s.decTotal = t.decTotal := by
      rw [runMoves_decTotal h hr, hc]; rfl
    have hcall := decApplyAll_call B (d := s.decTotal) hb
    rw [htotal] at hcall
    exact hcall

/-- A run without commands on a unit leaves the unit's outputs as they were. -/
theorem runMoves_outputs_of_no_commands {p : Port} {ms : List Move} {s t : State} (h : runMoves ms s = some t)
    (hr : Move.reset ∉ ms) (hc : commandsOn p ms = []) : t.outputs p = s.outputs p := by
  cases p with
  | enc =>
    have htotal := runMoves_encTotal h hr
    rw [hc, encApplyAll] at htotal
    rw [State.outputs_enc, State.outputs_enc, Option.some.inj htotal]
  | dec =>
    have htotal := runMoves_decTotal h hr
    rw [hc] at htotal
    exact congrArg DecState.outq htotal

end Sys2Proof.Machine
end

section
/-! SUPPORT. The calls the host observes (70_reset_and_hazards.md R193): each accepted `END` marks where the outputs so far
end, so the calls of a run cut the unit's outputs into the values of the document's functions. -/

namespace Sys2Proof.Machine

open Sys2Proof

theorem commandsOn_eq_append {p : Port} {ms : List Move} {is js : List Instr} (h : commandsOn p ms = is ++ js) :
    ∃ ms₁ ms₂, ms = ms₁ ++ ms₂ ∧ commandsOn p ms₁ = is ∧ commandsOn p ms₂ = js := by
  obtain ⟨is', js', hcmds, rfl, rfl⟩ := List.filter_eq_append_iff.1 h
  obtain ⟨ms₁, ms₂, rfl, rfl, rfl⟩ := List.filterMap_eq_append_iff.1 hcmds
  exact ⟨ms₁, ms₂, rfl, rfl, rfl⟩

/-- The first command of a unit in a run, with what stands before and after it. -/
theorem commandsOn_eq_cons {p : Port} {ms : List Move} {i : Instr} {is : List Instr} (h : commandsOn p ms = i :: is) :
    ∃ ms₁ w ms₂, ms = ms₁ ++ .cmd p w :: ms₂ ∧ commandsOn p ms₁ = [] ∧ decode p w = i ∧ commandsOn p ms₂ = is := by
  induction ms with
  | nil => cases h
  | cons m ms ih =>
    by_cases hm : ∃ w, m = .cmd p w
    · obtain ⟨w, rfl⟩ := hm
      rw [commandsOn_cons_cmd] at h
      obtain ⟨hi, his⟩ := List.cons.inj h
      exact ⟨[], w, ms, rfl, rfl, hi, his⟩
    · have hother := commandsOn_cons_other (not_exists.1 hm)
      obtain ⟨ms₁, w, ms₂, rfl, h₁, hi, h₂⟩ := ih ((hother ms).symm.trans h)
      exact ⟨m :: ms₁, w, ms₂, rfl, (hother ms₁).trans h₁, hi, h₂⟩

/-- A command that is no `END` of the unit leaves the unit's call ends as they were. -/
theorem exec_bounds_of_ne_end {i : Instr} {p : Port} {s t : State} (hi : i ≠ endOn p) (h : exec i s = .next t) :
    (t.record p).bounds = (s.record p).bounds := by
  by_cases hp : i.port = p
  · cases p with
    | enc =>
      obtain ⟨-, -, -, -, -, -, -, hbounds⟩ := encCommandsFrame s t i hp h
      rwa [if_neg fun hend => hi hend.1] at hbounds
    | dec =>
      obtain ⟨-, -, -, -, -, -, -, hbounds⟩ := decCommandsFrame s t i hp h
      rwa [if_neg fun hend => hi hend.1] at hbounds
  · obtain ⟨hrec, -⟩ := exec_foreign hp h
    rw [hrec]

/-- An accepted `END` marks where the unit's outputs so far end. -/
theorem exec_endOn_bounds {p : Port} {s t : State} (hc : cmdReady p s = true) (h : exec (endOn p) s = .next t) :
    (t.record p).bounds = (s.record p).bounds ++ [⟨.ended, (t.outputs p).length⟩] := by
  cases p with
  | enc =>
    obtain ⟨-, -, -, -, hpopped, -, -, hbounds⟩ := encCommandsFrame s t _ rfl h
    rw [if_pos ⟨rfl, hc⟩, ← hpopped, ← List.length_append] at hbounds
    exact hbounds
  | dec =>
    obtain ⟨-, -, -, -, hpopped, -, -, hbounds⟩ := decCommandsFrame s t _ rfl h
    rw [if_pos ⟨rfl, hc⟩, ← hpopped, ← List.length_append] at hbounds
    exact hbounds

/-- A pop leaves the call ends of both units as they were. -/
theorem popUnit_bounds (q p : Port) (s : State) : ((popUnit q s).record p).bounds = (s.record p).bounds := by
  cases q with
  | enc =>
    obtain ⟨-, -, -, -, hbounds, -, -, hother, -⟩ := popUnit_enc_spec s
    cases p with
    | enc => exact hbounds
    | dec => exact congrArg Record.bounds hother
  | dec =>
    obtain ⟨-, -, -, -, hbounds, -, -, hother, -⟩ := popUnit_dec_spec s
    cases p with
    | enc => exact congrArg Record.bounds hother
    | dec => exact hbounds

/-- An idle read leaves the call ends of both units as they were. -/
theorem readIdle_bounds (q p : Port) (b : Bool) (s : State) :
    ((s.setRecord q ((s.record q).sawIdle b)).record p).bounds = (s.record p).bounds := by
  cases p <;> cases q <;> rfl

/-- A transaction that is no `END` of the unit and no reset leaves the unit's call ends as they were. -/
theorem perform_bounds_of_ne_end {m : Move} {p : Port} {s t : State} (hend : ∀ w, m = .cmd p w → decode p w ≠ endOn p)
    (hr : m ≠ .reset) (h : perform m s = .next t) : (t.record p).bounds = (s.record p).bounds := by
  obtain ⟨q, w, rfl, hx⟩ | ⟨q, rfl, -, rfl⟩ | ⟨q, rfl, -, rfl⟩ | ⟨rfl, -⟩ := perform_next_cases h
  · refine exec_bounds_of_ne_end (fun hi => ?_) hx
    have hq : q = p := by rw [← decode_port q w, hi, endOn_port]
    subst hq
    exact hend w rfl hi
  · exact popUnit_bounds q p s
  · exact readIdle_bounds q p _ s
  · exact absurd rfl hr

/-- A run without an `END` of the unit leaves the unit's call ends as they were. -/
theorem runMoves_bounds_of_no_end {p : Port} {ms : List Move} {s t : State} (h : runMoves ms s = some t)
    (hr : Move.reset ∉ ms) (hend : endOn p ∉ commandsOn p ms) : (t.record p).bounds = (s.record p).bounds := by
  induction ms generalizing s with
  | nil => cases h; rfl
  | cons m ms ih =>
    obtain ⟨-, u, hp, hu⟩ := runMoves_cons.1 h
    obtain ⟨hm, hms⟩ := not_or.1 (mt List.mem_cons.2 hr)
    by_cases hcmd : ∃ w, m = .cmd p w
    · obtain ⟨w, rfl⟩ := hcmd
      rw [commandsOn_cons_cmd] at hend
      obtain ⟨hw, hrest⟩ := not_or.1 (mt List.mem_cons.2 hend)
      have hfirst := perform_bounds_of_ne_end (fun v hv => by cases hv; exact Ne.symm hw) (Ne.symm hm) hp
      exact (ih hu hms hrest).trans hfirst
    · rw [commandsOn_cons_other (not_exists.1 hcmd)] at hend
      have hfirst := perform_bounds_of_ne_end (fun v hv => absurd ⟨v, hv⟩ hcmd) (Ne.symm hm) hp
      exact (ih hu hms hend).trans hfirst

/-- A run whose commands on a unit are one call adds one call end: where the unit's outputs so far end. -/
theorem runMoves_call_bounds {p : Port} {ms : List Move} {s t : State} {B : List Byte} (h : runMoves ms s = some t)
    (hr : Move.reset ∉ ms) (hc : commandsOn p ms = callOn p B) :
    (t.record p).bounds = (s.record p).bounds ++ [⟨.ended, (t.outputs p).length⟩] := by
  obtain ⟨data, tail, rfl, hdata, htail⟩ := commandsOn_eq_append hc
  obtain ⟨before, w, after, rfl, hbefore, hw, hafter⟩ := commandsOn_eq_cons htail
  simp only [List.mem_append, List.mem_cons, not_or] at hr
  obtain ⟨hrData, hrBefore, -, hrAfter⟩ := hr
  obtain ⟨s₁, h₁, hrun⟩ := runMoves_append.1 h
  obtain ⟨s₂, h₂, hrun⟩ := runMoves_append.1 hrun
  obtain ⟨he, s₃, hend, h₃⟩ := runMoves_cons.1 hrun
  have hx : exec (endOn p) s₂ = .next s₃ := hw ▸ hend
  calc (t.record p).bounds
      = (s₃.record p).bounds := runMoves_bounds_of_no_end h₃ hrAfter (by simp [hafter])
    _ = (s₂.record p).bounds ++ [⟨.ended, (s₃.outputs p).length⟩] := exec_endOn_bounds he hx
    _ = (s₁.record p).bounds ++ [⟨.ended, (s₃.outputs p).length⟩] := by
        rw [runMoves_bounds_of_no_end h₂ hrBefore (by simp [hbefore])]
    _ = (s.record p).bounds ++ [⟨.ended, (s₃.outputs p).length⟩] := by
        rw [runMoves_bounds_of_no_end h₁ hrData (hdata ▸ endOn_not_mem_data p B)]
    _ = (s.record p).bounds ++ [⟨.ended, (t.outputs p).length⟩] := by
        rw [runMoves_outputs_of_no_commands h₃ hrAfter hafter]

/-- The call ends of ended calls with the values `vss`, the first one starting at position `start` of the outputs. -/
def callEnds (start : Nat) : List (List Byte) → List Boundary
  | [] => []
  | vs :: vss => ⟨.ended, start + vs.length⟩ :: callEnds (start + vs.length) vss

/-- A run whose commands on a unit are whole calls appends their values to the unit's outputs and adds their call ends. -/
theorem runMoves_calls {p : Port} {Bs : List (List Byte)} {ms : List Move} {s t : State} (h : runMoves ms s = some t)
    (hr : Move.reset ∉ ms) (hb : s.betweenCalls p) (hc : commandsOn p ms = Bs.flatMap (callOn p)) :
    t.outputs p = s.outputs p ++ (Bs.map (refCall p)).flatten
      ∧ (t.record p).bounds = (s.record p).bounds ++ callEnds (s.outputs p).length (Bs.map (refCall p)) := by
  induction Bs generalizing ms s with
  | nil =>
    have hnone : commandsOn p ms = [] := hc
    have hout := runMoves_outputs_of_no_commands h hr hnone
    have hbounds := runMoves_bounds_of_no_end (p := p) h hr (by simp [hnone])
    exact ⟨by simp [hout], by simp [hbounds, callEnds]⟩
  | cons B Bs ih =>
    rw [List.flatMap_cons] at hc
    obtain ⟨call, rest, rfl, hcall, hrest⟩ := commandsOn_eq_append hc
    obtain ⟨hrCall, hrRest⟩ := not_or.1 (mt List.mem_append.2 hr)
    obtain ⟨u, hu, ht⟩ := runMoves_append.1 h
    obtain ⟨hbU, houtU⟩ := runMoves_call_outputs hu hrCall hb hcall
    have hboundsU := runMoves_call_bounds hu hrCall hcall
    obtain ⟨houtT, hboundsT⟩ := ih ht hrRest hbU hrest
    refine ⟨by simp [houtT, houtU], ?_⟩
    rw [hboundsT, hboundsU, houtU]
    simp [callEnds]

/-- Ended calls that have all been popped are complete, with their own values. -/
theorem completeFrom_callEnds (before : List Byte) (vss : List (List Byte)) :
    completeFrom (before ++ vss.flatten) before.length (callEnds before.length vss) = vss := by
  induction vss generalizing before with
  | nil => rfl
  | cons vs vss ih =>
    have hstream : before ++ (vs :: vss).flatten = (before ++ vs) ++ vss.flatten := by simp
    have hlen : before.length + vs.length = (before ++ vs).length := List.length_append.symm
    rw [hstream, callEnds, hlen, completeFrom, ih, List.take_left, List.drop_left, if_pos]
    simp [Boundary.complete]

/-- When a run of whole calls has left its unit idle, the host has observed exactly the values of the calls. -/
theorem completeCalls_of_idle {p : Port} {Bs : List (List Byte)} {ms : List Move} {s t : State}
    (h : runMoves ms s = some t) (hr : Move.reset ∉ ms) (hb : s.betweenCalls p) (hout : s.outputs p = [])
    (hbounds : (s.record p).bounds = []) (hc : commandsOn p ms = Bs.flatMap (callOn p)) (hidle : idle p t = true) :
    (t.record p).completeCalls = Bs.map (refCall p) := by
  obtain ⟨houtT, hboundsT⟩ := runMoves_calls h hr hb hc
  rw [State.outputs_of_idle hidle, hout, List.nil_append] at houtT
  rw [hbounds, hout, List.nil_append] at hboundsT
  rw [Record.completeCalls, houtT, hboundsT]
  exact completeFrom_callEnds [] _

/-- Settles O49: the call ends of the run cut what was popped into `ENCODE` of each call. -/
theorem completeEncoderCallsObserved : Obligations.CompleteEncoderCallsObserved := by
  intro s t ms Bs h hr hb hq hpopped hbounds hc hidle
  exact completeCalls_of_idle (p := .enc) h hr hb (by simp [State.outputs, hpopped, hq]) hbounds hc hidle

/-- Settles O50: the call ends of the run cut what was popped into `DECODE` of each call. -/
theorem completeDecoderCallsObserved : Obligations.CompleteDecoderCallsObserved := by
  intro s t ms Ts h hr hb hq hpopped hbounds hc hidle
  exact completeCalls_of_idle (p := .dec) h hr hb (by simp [State.outputs, hpopped, hq]) hbounds hc hidle

end Sys2Proof.Machine
end

section
/-! SUPPORT. Command words (30_encoding.md R60 to R64): every word is a packed `OP` and `DATA`, so what holds of all words is
said by the two values of `OP`. -/

namespace Sys2Proof.Machine

open Sys2Proof

theorem packWord_getLsbD (op : BitVec 1) (d : Byte) (k : Nat) :
    (packWord op d).getLsbD k = if k < 8 then d.getLsbD k else op.getLsbD (k - 8) := BitVec.getLsbD_append

theorem opField_packWord_zero (d : Byte) : opField (packWord 0 d) = false := packWord_getLsbD 0 d 8

theorem opField_packWord_one (d : Byte) : opField (packWord 1 d) = true := packWord_getLsbD 1 d 8

theorem dataField_packWord (op : BitVec 1) (d : Byte) : dataField (packWord op d) = d :=
  BitVec.extractLsb'_append_eq_right

/-- A word is its two fields packed (R60). -/
theorem packWord_fields (w : CmdWord) : packWord (w.extractLsb' 8 1) (dataField w) = w := by
  apply BitVec.eq_of_getLsbD_eq
  intro k hk
  rw [packWord_getLsbD]
  split
  · rename_i h8
    simp [dataField, h8]
  · obtain rfl : k = 8 := by omega
    simp

theorem op_cases (op : BitVec 1) : op = 0 ∨ op = 1 := by
  revert op; decide

/-- Every word is a `DATA` word or an `END` word (R61, R62). -/
theorem word_cases (w : CmdWord) : (∃ d, w = packWord 0 d) ∨ ∃ d, w = packWord 1 d := by
  have hw := packWord_fields w
  rcases op_cases (w.extractLsb' 8 1) with h | h
  · exact .inl ⟨dataField w, by rw [← h, hw]⟩
  · exact .inr ⟨dataField w, by rw [← h, hw]⟩

theorem decode_packWord_zero (p : Port) (d : Byte) : decode p (packWord 0 d) = dataOn p d := by
  have hop := opField_packWord_zero d
  cases p <;> simp only [decode, hop, dataField_packWord, dataOn, Bool.false_eq_true, if_false]

theorem decode_packWord_one (p : Port) (d : Byte) : decode p (packWord 1 d) = endOn p := by
  have hop := opField_packWord_one d
  cases p <;> simp only [decode, hop, endOn, if_true]

theorem encode_dataOn (p : Port) (d : Byte) : encode (dataOn p d) = packWord 0 d := by cases p <;> rfl

theorem encode_endOn (p : Port) : encode (endOn p) = packWord 1 0 := by cases p <;> rfl

/-- A command's word decodes to it on the command's own port. -/
theorem decode_encode (i : Instr) : decode i.port (encode i) = i := by
  cases i with
  | encData b => exact decode_packWord_zero .enc b
  | encEnd => exact decode_packWord_one .enc 0
  | decData c => exact decode_packWord_zero .dec c
  | decEnd => exact decode_packWord_one .dec 0

/-- Fields are masked one by one. -/
theorem packWord_and (op op' : BitVec 1) (d d' : Byte) :
    packWord op d &&& packWord op' d' = packWord (op &&& op') (d &&& d') := by
  apply BitVec.eq_of_getLsbD_eq
  intro k _
  simp only [BitVec.getLsbD_and, packWord_getLsbD]
  split <;> rfl

/-- The mask of the opcode map keeps `OP` and clears `DATA` (R64). -/
theorem packWord_and_mask (op : BitVec 1) (d : Byte) : packWord op d &&& 0x100 = packWord op 0 := by
  have hop : op &&& 1 = op := by revert op; decide
  have hdata : d &&& 0 = 0 := BitVec.and_zero
  calc packWord op d &&& packWord 1 0
      = packWord (op &&& 1) (d &&& 0) := packWord_and op 1 d 0
    _ = packWord op 0 := by rw [hop, hdata]

theorem opcodeMap_mask : ∀ r ∈ opcodeMap, r.mask = 0x100 := by decide

/-- Which rows of the opcode map a word matches does not depend on its `DATA` (R64). -/
theorem matchesWord_packWord {r : OpcodeRow} (hr : r ∈ opcodeMap) (p : Port) (op : BitVec 1) (d : Byte) :
    r.matchesWord p (packWord op d) = r.matchesWord p (packWord op 0) := by
  rw [OpcodeRow.matchesWord, OpcodeRow.matchesWord, opcodeMap_mask r hr, packWord_and_mask, packWord_and_mask]

/-- Which command a word is does not depend on its `DATA`. -/
theorem mnemonic_decode_packWord (p : Port) (op : BitVec 1) (d : Byte) :
    mnemonic (decode p (packWord op d)) = mnemonic (decode p (packWord op 0)) := by
  rcases op_cases op with rfl | rfl
  · rw [decode_packWord_zero, decode_packWord_zero]; cases p <;> rfl
  · rw [decode_packWord_one, decode_packWord_one]

/-- On each port, each value of `OP` is the pattern of exactly one row, the row of the command it decodes to. -/
theorem opcodeMap_row_of_op (p : Port) (op : BitVec 1) :
    (opcodeMap.filter fun r => r.matchesWord p (packWord op 0)).length = 1
      ∧ ∀ r ∈ opcodeMap, r.matchesWord p (packWord op 0) = true → mnemonic (decode p (packWord op 0)) = r.mnemonic := by
  cases p <;> revert op <;> decide

/-- Settles O1: the rows tell words apart by `OP` alone, so one word for each value of `OP` decides. -/
theorem everyWordMatchesOneRow : Obligations.EveryWordMatchesOneRow := by
  intro p w
  rw [← packWord_fields w]
  obtain ⟨hone, hrow⟩ := opcodeMap_row_of_op p (w.extractLsb' 8 1)
  refine ⟨?_, (wellFormedOn_iff _ _).2 (decode_port p _), fun r hr hmatch => ?_⟩
  · rwa [List.filter_congr fun r hr => matchesWord_packWord hr p _ _]
  · rw [mnemonic_decode_packWord]
    exact hrow r hr ((matchesWord_packWord hr p _ _).symm.trans hmatch)

/-- Settles O2: the operand is the field `cmd[7:0]`. -/
theorem wordFieldsSelectCommand : Obligations.WordFieldsSelectCommand := by
  intro w
  constructor
  · intro hop
    have hop' : opField w = false := hop
    refine ⟨dataField w, fun k hk => ?_, by simp [decode, hop'], by simp [decode, hop']⟩
    simp [dataField, hk]
  · intro hop
    have hop' : opField w = true := hop
    exact ⟨by simp [decode, hop'], by simp [decode, hop']⟩

/-- Settles O3: a command is decoded from its own word, and a word is encoded from its fields. -/
theorem decodeEncodeAgree : Obligations.DecodeEncodeAgree := by
  constructor
  · intro p i hi
    rw [← (wellFormedOn_iff p i).1 hi, decode_encode]
  · intro p w
    show _ = if opField w then _ else w
    rcases word_cases w with ⟨d, rfl⟩ | ⟨d, rfl⟩
    · rw [decode_packWord_zero, encode_dataOn, opField_packWord_zero, if_neg Bool.false_ne_true]
    · rw [decode_packWord_one, encode_endOn, opField_packWord_one, if_pos rfl]
      rfl

/-- An accepted `END` leaves its unit between calls (R62; 41_encoder.md R104, 42_decoder.md R134). -/
theorem exec_endOn_betweenCalls {p : Port} {s t : State} (hr : cmdReady p s = true) (h : exec (endOn p) s = .next t) :
    t.betweenCalls p := by
  cases p with
  | enc =>
    obtain ⟨e, hu, rfl⟩ := (exec_encEnd_eq_next hr).1 h
    obtain ⟨e', he', hb, -⟩ := encEndUnit_spec s.enc (encEndUnit_phase_ne hu)
    cases hu.symm.trans he'
    exact hb
  | dec =>
    cases (exec_decEnd_ready hr).symm.trans h
    exact ⟨rfl, rfl⟩

/-- Settles O4: every `END` word of a port decodes to the one `END` command of the port. -/
theorem endIgnoresItsDataField : Obligations.EndIgnoresItsDataField := by
  intro p d₁ d₂ s
  refine ⟨?_, ?_, fun hr t h => ?_⟩
  · cases p
    · exact decode_packWord_one .enc d₁
    · exact decode_packWord_one .dec d₁
  · simp only [perform, decode_packWord_one]
  · rw [perform, decode_packWord_one] at h
    have hb := exec_endOn_betweenCalls hr h
    cases p <;> exact hb

/-- Settles O5, by running `decode` on the six words. -/
theorem sampleWordsDecode : Obligations.SampleWordsDecode := by
  unfold Obligations.SampleWordsDecode
  decide

end Sys2Proof.Machine
end

section
/-! SUPPORT. A step on a command (70_reset_and_hazards.md R192; log entries 1 to 4): the script's head is decoded and run, or it
waits. -/

namespace Sys2Proof.Machine

open Sys2Proof

/-- A step performs the script's head unless that must wait. -/
theorem step_of_script {m : Move} {rest : List Move} {s : State} (h : s.host.script = m :: rest) :
    step s = if waits m s then .next s else perform m (s.setScript rest) := by
  rw [step, h]; rfl

/-- Settles O6: a command waits exactly when there was a reset and its unit has no room. -/
theorem stepRunsDecodedCommand : Obligations.StepRunsDecodedCommand := by
  intro s p w rest hs
  have hwaits : waits (.cmd p w) s = (s.wasReset && !cmdReady p s) := rfl
  rw [step_of_script hs, hwaits]
  exact ⟨fun hr => by simp [hr, perform], fun hw => by simp [hw, perform], fun hw hr => by simp [hw, hr]⟩

/-- Settles O7: the placed word is the script's head, and taking it off gives the state it was placed in. -/
theorem placedWordRunsNext : Obligations.PlacedWordRunsNext := by
  intro s nbits w i hi hr
  rw [decodeTableWord, decodeTableWordOn, Option.ite_none_right_eq_some] at hi
  obtain ⟨hlt, hi⟩ := hi
  cases hi
  rw [State.withFetchWord, placeCommand, if_pos hlt]
  have hready := (cmdReady_setScript .enc s (.cmd .enc (BitVec.ofNat 9 w) :: s.host.script)).trans hr
  exact (stepRunsDecodedCommand _ .enc _ _ rfl).1 hready

end Sys2Proof.Machine
end

section
/-! SUPPORT. When the transactions are enabled and what a pop gives (30_encoding.md R69, R70). -/

namespace Sys2Proof.Machine

open Sys2Proof

/-- Settles O34, by the pop of a queue that is not empty. -/
theorem popDeliversTheHead : Obligations.PopDeliversTheHead := by
  intro s v q hw
  exact ⟨fun hq => execPop_eq_next.2 ⟨hw, (popUnit_enc_cons hq).symm⟩,
    fun hq => execPop_eq_next.2 ⟨hw, (popUnit_dec_cons hq).symm⟩⟩

/-- The free-space condition as the rule writes it, with the depth on one side (R69). -/
theorem enabled_cmd_iff {p : Port} {s : State} (w : CmdWord) (hw : s.wasReset = true) :
    enabled (.cmd p w) s = true ↔ (outq p s).length ≤ Config.outDepth p - Config.mostOutputs p := by
  rw [enabled, cmdReady_iff, and_iff_right hw]
  exact (Nat.le_sub_iff_add_le (mostOutputs_le_outDepth p)).symm

theorem enabled_pop_iff {p : Port} {s : State} (hw : s.wasReset = true) :
    enabled (.pop p) s = true ↔ outq p s ≠ [] := by
  rw [enabled, outValid_iff, and_iff_right hw]

/-- Settles O36: the free-space condition and the empty queue, on each port. -/
theorem enabledExactlyWhenRoom : Obligations.EnabledExactlyWhenRoom := by
  intro s w hw
  exact ⟨enabled_cmd_iff w hw, enabled_cmd_iff w hw, enabled_pop_iff hw, enabled_pop_iff hw,
    mostOutputs_le_outDepth .enc, mostOutputs_le_outDepth .dec⟩

end Sys2Proof.Machine
end

section
/-! SUPPORT. A call can be carried out at any queue depth (30_encoding.md R73; 70_reset_and_hazards.md R189): a unit with an
empty queue is ready, and after each command the host pops until the queue is empty again. -/

namespace Sys2Proof.Machine

open Sys2Proof

/-- After reset a unit with an empty queue is ready for a command, whatever its depth. -/
theorem cmdReady_of_empty {p : Port} {s : State} (hw : s.wasReset = true) (hq : outq p s = []) : cmdReady p s = true := by
  rw [cmdReady_iff, hq, List.length_nil, Nat.zero_add]
  exact ⟨hw, mostOutputs_le_outDepth p⟩

/-- In a legal state every accepted command answers a next state. -/
theorem exec_next_of_legal {i : Instr} {s : State} (hs : s.legal) (hr : cmdReady i.port s = true) :
    ∃ t, exec i s = .next t := by
  obtain ⟨⟨hphase, -⟩, -⟩ := id hs
  cases i with
  | encData b =>
    obtain ⟨e, -, hu, -⟩ := encDataUnit_spec b s.enc hphase
    exact ⟨_, (exec_encData_eq_next hr).2 ⟨e, hu, rfl⟩⟩
  | encEnd =>
    obtain ⟨e, hu, -⟩ := encEndUnit_spec s.enc hphase
    exact ⟨_, (exec_encEnd_eq_next hr).2 ⟨e, hu, rfl⟩⟩
  | decData c => exact ⟨_, exec_decData_ready hr⟩
  | decEnd => exact ⟨_, exec_decEnd_ready hr⟩

/-- A run keeps a legal machine legal. -/
theorem runMoves_keeps_legal {ms : List Move} {s t : State} (h : runMoves ms s = some t) (hs : s.legal) : t.legal := by
  induction ms generalizing s with
  | nil => cases h; exact hs
  | cons m ms ih =>
    obtain ⟨-, u, hp, hu⟩ := runMoves_cons.1 h
    exact ih hu (perform_legal_of_inv hs.inv hp)

/-- No transaction takes the reset flag back. -/
theorem perform_wasReset_true {m : Move} {s t : State} (h : perform m s = .next t) (hw : s.wasReset = true) :
    t.wasReset = true := by
  by_cases hm : m = .reset
  · subst hm; cases h; rfl
  · exact (perform_keeps_wasReset hm h).trans hw

theorem runMoves_wasReset_true {ms : List Move} {s t : State} (h : runMoves ms s = some t) (hw : s.wasReset = true) :
    t.wasReset = true := by
  induction ms generalizing s with
  | nil => cases h; exact hw
  | cons m ms ih =>
    obtain ⟨-, u, hp, hu⟩ := runMoves_cons.1 h
    exact ih hu (perform_wasReset_true hp hw)

theorem commandsOn_drain (p q : Port) (s : State) : commandsOn p (drain q s) = [] := by
  simp [commandsOn, drain, Move.command]

/-- Draining a unit runs and leaves its queue empty (R73). -/
theorem runMoves_drain (p : Port) {s : State} (hw : s.wasReset = true) :
    ∃ t, runMoves (drain p s) s = some t ∧ outq p t = [] := by
  simp only [drain]
  generalize hn : (outq p s).length = n
  induction n generalizing s with
  | zero => exact ⟨s, rfl, List.eq_nil_of_length_eq_zero hn⟩
  | succ n ih =>
    have hne : outq p s ≠ [] := fun hq => by simp [hq] at hn
    obtain ⟨t, ht, hq⟩ := ih (s := popUnit p s) ((wasReset_pop p s).trans hw) (by simp [outq_pop, hn])
    exact ⟨t, runMoves_cons.2 ⟨(enabled_pop_iff hw).2 hne, _, execPop_eq_next.2 ⟨hw, rfl⟩, ht⟩, hq⟩

/-- Commands of one unit can be issued one after another, draining the unit after each. -/
theorem commands_can_be_run {p : Port} {is : List Instr} {s : State} (his : ∀ i ∈ is, i.port = p) (hs : s.legal)
    (hw : s.wasReset = true) (hq : outq p s = []) :
    ∃ ms t, (∀ m ∈ ms, m.port = some p) ∧ commandsOn p ms = is ∧ runMoves ms s = some t ∧ outq p t = [] := by
  induction is generalizing s with
  | nil => exact ⟨[], s, by simp, rfl, rfl, hq⟩
  | cons i is ih =>
    obtain ⟨hi, his⟩ := List.forall_mem_cons.1 his
    subst hi
    have hready := cmdReady_of_empty hw hq
    obtain ⟨u, hu⟩ := exec_next_of_legal hs hready
    have hissue : runMoves [issue i] s = some u :=
      runMoves_cons.2 ⟨hready, u, (congrArg (exec · s) (decode_encode i)).trans hu, rfl⟩
    obtain ⟨v, hv, hqv⟩ := runMoves_drain i.port (runMoves_wasReset_true hissue hw)
    have hround := runMoves_append.2 ⟨u, hissue, hv⟩
    obtain ⟨ms, t, hport, hcmds, ht, hqt⟩ :=
      ih his (runMoves_keeps_legal hround hs) (runMoves_wasReset_true hround hw) hqv
    refine ⟨([issue i] ++ drain i.port u) ++ ms, t, ?_, ?_, runMoves_append.2 ⟨v, hround, ht⟩, hqt⟩
    · simp only [List.mem_append, List.mem_singleton, drain, List.mem_replicate]
      rintro m ((rfl | ⟨-, rfl⟩) | hm)
      · rfl
      · rfl
      · exact hport m hm
    · rw [commandsOn_append, commandsOn_append, commandsOn_drain, hcmds, issue, commandsOn_cons_cmd, decode_encode]
      rfl

theorem dataOn_port (p : Port) (b : Byte) : (dataOn p b).port = p := by cases p <;> rfl

theorem callOn_port (p : Port) (B : List Byte) : ∀ i ∈ callOn p B, i.port = p := by
  refine List.forall_mem_append.2 ⟨fun i hi => ?_, List.forall_mem_singleton.2 (endOn_port p)⟩
  obtain ⟨b, -, rfl⟩ := List.mem_map.1 hi
  exact dataOn_port p b

/-- A call of a unit with an empty queue can be issued and drained, and delivers the value of the document's function. -/
theorem call_can_be_completed {p : Port} {s : State} (B : List Byte) (hs : s.Inv) (hw : s.wasReset = true)
    (hb : s.betweenCalls p) (hq : outq p s = []) :
    ∃ ms t, (∀ m ∈ ms, m.port = some p) ∧ commandsOn p ms = callOn p B ∧ runMoves ms s = some t ∧ outq p t = []
      ∧ t.betweenCalls p ∧ (t.record p).popped = (s.record p).popped ++ refCall p B := by
  obtain ⟨-, -, hlegal⟩ := hs
  obtain ⟨ms, t, hport, hcmds, ht, hqt⟩ := commands_can_be_run (callOn_port p B) (hlegal hw) hw hq
  have hreset : Move.reset ∉ ms := fun hm => by cases hport _ hm
  obtain ⟨hbt, hout⟩ := runMoves_call_outputs ht hreset hb hcmds
  rw [State.outputs, State.outputs, hq, hqt, List.append_nil, List.append_nil] at hout
  exact ⟨ms, t, hport, hcmds, ht, hqt, hbt, hout⟩

/-- Settles O22, by draining the encoder after each command of the call. -/
theorem encCallCanBeCompleted : Obligations.EncCallCanBeCompleted := by
  intro s B hs hw hb hq
  exact call_can_be_completed (p := .enc) B hs hw hb hq

/-- Settles O33, by draining the decoder after each command of the call. -/
theorem decCallCanBeCompleted : Obligations.DecCallCanBeCompleted := by
  intro s T hs hw hb hq
  exact call_can_be_completed (p := .dec) T hs hw hb hq

end Sys2Proof.Machine
end

section
/-! SUPPORT. What stands in the encoder's queue (30_encoding.md R65, 41_encoder.md R110): each rule appends symbol codes and
`PAD_CODE` only. -/

namespace Sys2Proof.Machine

open Sys2Proof

theorem encOutputCode_of_mem_encWindows {W : List Bool} {v : Byte} (h : v ∈ encWindows W) : encOutputCode v := by
  obtain ⟨j, -, rfl⟩ := List.mem_map.1 h
  exact .inl ⟨_, rfl⟩

theorem encOutputCode_of_mem_encTail {X : List Bool} {v : Byte} (h : v ∈ encTail X) : encOutputCode v := by
  unfold encTail at h
  split at h
  · cases h
  · rcases List.mem_cons.1 h with rfl | hpad
    · exact .inl ⟨_, rfl⟩
    · exact .inr (List.eq_of_mem_replicate hpad)

/-- `ENC.DATA` appends symbol codes. -/
theorem encDataUnit_outputCodes {b : Byte} {e e' : EncState} (h : encDataUnit b e = some e')
    (he : ∀ v ∈ e.outq, encOutputCode v) : ∀ v ∈ e'.outq, encOutputCode v := by
  obtain ⟨e₁, W, h₁, -, -, -, -, -, hq⟩ := encDataUnit_spec b e (encDataUnit_phase_ne h)
  cases h.symm.trans h₁
  rw [hq]
  exact List.forall_mem_append.2 ⟨he, fun _ => encOutputCode_of_mem_encWindows⟩

/-- `ENC.END` appends a symbol code and padding. -/
theorem encEndUnit_outputCodes {e e' : EncState} (h : encEndUnit e = some e')
    (he : ∀ v ∈ e.outq, encOutputCode v) : ∀ v ∈ e'.outq, encOutputCode v := by
  obtain ⟨e₁, h₁, -, hq⟩ := encEndUnit_spec e (encEndUnit_phase_ne h)
  cases h.symm.trans h₁
  rw [hq]
  exact List.forall_mem_append.2 ⟨he, fun _ => encOutputCode_of_mem_encTail⟩

/-- A command keeps the encoder's queue to symbol codes and padding. -/
theorem exec_keeps_outputCodes {i : Instr} {s t : State} (hs : s.encOutputsLegal) (h : exec i s = .next t) :
    t.encOutputsLegal := by
  obtain ⟨hw, ⟨-, rfl⟩ | ⟨-, ⟨b, e, -, hu, rfl⟩ | ⟨e, -, hu, rfl⟩ | ⟨c, -, rfl⟩ | ⟨-, rfl⟩⟩⟩ := exec_next_cases h
  · exact hs
  · exact fun _ => encDataUnit_outputCodes hu (hs hw)
  · exact fun _ => encEndUnit_outputCodes hu (hs hw)
  · exact hs
  · exact hs

/-- A pop of either unit puts nothing into the encoder's queue. -/
theorem mem_outq_of_mem_popUnit {p : Port} {s : State} {v : Byte} (h : v ∈ (popUnit p s).enc.outq) : v ∈ s.enc.outq := by
  cases p with
  | enc => exact List.mem_of_mem_tail (outq_pop .enc s ▸ h)
  | dec =>
    obtain ⟨-, -, -, -, -, -, henc, -⟩ := popUnit_dec_spec s
    rwa [henc] at h

/-- A transaction keeps the encoder's queue to symbol codes and padding. -/
theorem perform_keeps_outputCodes {m : Move} {s t : State} (hs : s.encOutputsLegal) (h : perform m s = .next t) :
    t.encOutputsLegal := by
  obtain ⟨p, w, rfl, hx⟩ | ⟨p, rfl, hw, rfl⟩ | ⟨p, rfl, hw, rfl⟩ | ⟨rfl, rfl⟩ := perform_next_cases h
  · exact exec_keeps_outputCodes hs hx
  · exact fun _ v hv => hs hw v (mem_outq_of_mem_popUnit hv)
  · intro _ v hv
    rw [State.setRecord_enc] at hv
    exact hs hw v hv
  · exact fun _ _ hv => nomatch hv

/-- Settles O47: a step leaves the state as it is or performs the script's head. -/
theorem stepKeepsEncoderOutputCodes : Obligations.StepKeepsEncoderOutputCodes := by
  refine ⟨fun _ _ hv => (nomatch hv), fun s t hs h => ?_⟩
  obtain ⟨-, hn⟩ | ⟨m, rest, -, ⟨-, -, hn⟩ | ⟨-, hp⟩⟩ := step_cases s
  · cases hn.symm.trans h; exact hs
  · cases hn.symm.trans h; exact hs
  · exact perform_keeps_outputCodes (s := s.setScript rest) hs (hp.symm.trans h)

end Sys2Proof.Machine
end

section
/-! SUPPORT. What an edge without reset does to a unit's queue and waiting times (30_encoding.md R67 to R70). -/

namespace Sys2Proof.Machine

open Sys2Proof

theorem performList_cons {m : Move} {ms : List Move} {s t : State} :
    performList (m :: ms) s = .next t ↔ ∃ u, perform m s = .next u ∧ performList ms u = .next t := by
  rw [performList]
  cases perform m s <;> simp

theorem performList_wasReset_true {ms : List Move} {s t : State} (h : performList ms s = .next t)
    (hw : s.wasReset = true) : t.wasReset = true := by
  induction ms generalizing s with
  | nil => cases h; exact hw
  | cons m ms ih =>
    obtain ⟨u, hp, hu⟩ := performList_cons.1 h
    exact ih hu (perform_wasReset_true hp hw)

/-- A command only appends to the queues. -/
theorem exec_outq_append {i : Instr} {s t : State} (p : Port) (h : exec i s = .next t) :
    ∃ vs, outq p t = outq p s ++ vs := by
  by_cases hp : i.port = p
  · subst hp
    cases hi : i.port with
    | enc =>
      obtain ⟨-, -, -, -, -, -, hq, -⟩ := encCommandsFrame s t i hi h
      exact hq
    | dec =>
      obtain ⟨-, -, -, -, -, -, ⟨vs, -, hq⟩, -⟩ := decCommandsFrame s t i hi h
      exact ⟨vs, hq⟩
  · obtain ⟨-, hq⟩ := exec_foreign hp h
    exact ⟨[], hq.trans (List.append_nil _).symm⟩

/-- A pop of the other unit leaves a unit's queue as it was. -/
theorem outq_popUnit_of_ne {p q : Port} (h : q ≠ p) (s : State) : outq p (popUnit q s) = outq p s := by
  cases q with
  | enc =>
    obtain ⟨-, -, -, -, -, -, hdec, -⟩ := popUnit_enc_spec s
    cases p with
    | enc => exact absurd rfl h
    | dec => exact congrArg DecState.outq hdec
  | dec =>
    obtain ⟨-, -, -, -, -, -, henc, -⟩ := popUnit_dec_spec s
    cases p with
    | enc => exact congrArg EncState.outq henc
    | dec => exact absurd rfl h

/-- What an edge's pop of a unit, if there is one, leaves of the queues. -/
theorem popStage_outq {c : Bool} {q : Port} {s t : State} (p : Port)
    (h : performList (if c = true then [.pop q] else []) s = .next t) :
    outq p t = if q = p ∧ c = true then (outq p s).tail else outq p s := by
  obtain ⟨rfl, hp⟩ | ⟨rfl, rfl⟩ := performList_stage h
  · obtain ⟨-, rfl⟩ := execPop_eq_next.1 hp
    by_cases hq : q = p
    · subst hq; simp [outq_pop]
    · simp [hq, outq_popUnit_of_ne hq]
  · simp

/-- What an edge's command of a unit, if there is one, does to the queues: it appends to its own unit's. -/
theorem cmdStage_outq {c : Bool} {q : Port} {w : CmdWord} {s t : State} (p : Port)
    (h : performList (if c = true then [.cmd q w] else []) s = .next t) :
    ∃ vs, outq p t = outq p s ++ vs ∧ (q ≠ p ∨ c = false → vs = []) := by
  obtain ⟨rfl, hx⟩ | ⟨rfl, rfl⟩ := performList_stage h
  · by_cases hq : q = p
    · obtain ⟨vs, hvs⟩ := exec_outq_append p hx
      exact ⟨vs, hvs, fun hno => by simp [hq] at hno⟩
    · obtain ⟨-, hsame⟩ := exec_foreign (p := p) (by rwa [decode_port]) hx
      exact ⟨[], hsame.trans (List.append_nil _).symm, fun _ => rfl⟩
  · exact ⟨[], (List.append_nil _).symm, fun _ => rfl⟩

/-- The queue that an edge's output transfer leaves, before the edge's commands. -/
def keptQueue (p : Port) (i : PortIn) (ps : PortState) : List Byte :=
  if outTransfer p i ps then (outq p ps.core).tail else outq p ps.core

/-- An edge without reset takes the head of a queue that transfers it, and appends only if it accepts a command. -/
theorem edge_outq {i : PortIn} {ps qs : PortState} (hw : ps.core.wasReset = true) (hr : i.rst = false)
    (h : edge i ps = .next qs) (p : Port) :
    ∃ vs, outq p qs.core = keptQueue p i ps ++ vs ∧ (cmdTransfer p i ps = false → vs = []) := by
  obtain ⟨-, hlist, -⟩ := edge_cases hw hr h
  obtain ⟨s₃, hlist, hcmdDec⟩ := performList_append.1 hlist
  obtain ⟨s₂, hlist, hcmdEnc⟩ := performList_append.1 hlist
  obtain ⟨s₁, hpopEnc, hpopDec⟩ := performList_append.1 hlist
  have h₁ := popStage_outq p hpopEnc
  have h₂ := popStage_outq p hpopDec
  obtain ⟨vs, h₃, hvs⟩ := cmdStage_outq p hcmdEnc
  obtain ⟨ws, h₄, hws⟩ := cmdStage_outq p hcmdDec
  refine ⟨vs ++ ws, ?_, fun hno => ?_⟩
  · rw [h₄, h₃, h₂, h₁, List.append_assoc]
    cases p <;> simp [keptQueue]
  · cases p with
    | enc => simp [hvs (.inr hno), hws (.inl (by decide))]
    | dec => simp [hvs (.inl (by decide)), hws (.inr hno)]

/-- The timing that an edge without reset gives a unit. -/
theorem edge_timing {i : PortIn} {ps qs : PortState} (hw : ps.core.wasReset = true) (hr : i.rst = false)
    (h : edge i ps = .next qs) (p : Port) : qs.timing p = nextTiming p i ps (outq p qs.core).length := by
  obtain ⟨-, -, henc, hdec, -⟩ := edge_cases hw hr h
  cases p with
  | enc => exact henc
  | dec => exact hdec

/-- No edge without reset takes the reset flag back. -/
theorem edge_wasReset_true {i : PortIn} {ps qs : PortState} (hw : ps.core.wasReset = true) (hr : i.rst = false)
    (h : edge i ps = .next qs) : qs.core.wasReset = true := by
  obtain ⟨-, hlist, -⟩ := edge_cases hw hr h
  exact performList_wasReset_true hlist hw

/-- The timing of the values that an edge's output transfer leaves, before the edge lets time pass. -/
def keptTiming (p : Port) (i : PortIn) (ps : PortState) : UnitTiming :=
  if outTransfer p i ps then { ps.timing p with waits := (ps.timing p).waits.tail } else ps.timing p

/-- Each kept value waits one edge less, and each new value waits `LATENCY` edges (R70). -/
theorem nextTiming_waits (p : Port) (i : PortIn) (ps : PortState) (after : Nat) :
    (nextTiming p i ps after).waits = (keptTiming p i ps).waits.map Nat.pred
      ++ List.replicate (after - (keptTiming p i ps).waits.length) Config.latency := by
  cases hp : outTransfer p i ps <;> simp [nextTiming, keptTiming, hp]

end Sys2Proof.Machine
end

section
/-! SUPPORT. The port level's invariant (30_encoding.md R69, R70; log entry 9): every edge keeps one bounded, ordered waiting
time for each queued value. -/

namespace Sys2Proof.Machine

open Sys2Proof

/-- The first waiting time goes with the head of the queue. -/
theorem fits_tail {t : UnitTiming} {q : List Byte} (h : t.fits q) : { t with waits := t.waits.tail }.fits q.tail := by
  obtain ⟨hlen, hle, hsorted⟩ := h
  exact ⟨by simp [hlen], fun n hn => hle n (List.mem_of_mem_tail hn), hsorted.tail⟩

/-- Waiting times that have all become shorter still fit, and new values may wait for `LATENCY` behind them. -/
theorem fits_of_waits_eq {t t' : UnitTiming} {q vs : List Byte} (h : t.fits q)
    (hwaits : t'.waits = t.waits.map Nat.pred ++ List.replicate vs.length Config.latency) : t'.fits (q ++ vs) := by
  obtain ⟨hlen, hle, hsorted⟩ := h
  have hpred : ∀ n ∈ t.waits.map Nat.pred, n ≤ Config.latency := by
    intro n hn
    obtain ⟨k, hk, rfl⟩ := List.mem_map.1 hn
    exact (Nat.pred_le k).trans (hle k hk)
  have hnew : ∀ n ∈ List.replicate vs.length Config.latency, n = Config.latency := fun n => List.eq_of_mem_replicate
  rw [UnitTiming.fits, hwaits]
  refine ⟨by simp [hlen], List.forall_mem_append.2 ⟨hpred, fun n hn => (hnew n hn).le⟩, ?_⟩
  refine List.pairwise_append.2 ⟨hsorted.map _ fun _ _ => Nat.pred_le_pred, List.pairwise_replicate.2 (.inr le_rfl), ?_⟩
  intro a ha b hb
  exact hnew b hb ▸ hpred a ha

/-- The invariant, port by port. -/
theorem PortState.inv_iff (ps : PortState) :
    ps.Inv ↔ (ps.core.wasReset = true → ∀ p, (ps.timing p).fits (outq p ps.core)) := by
  refine imp_congr_right fun _ => ⟨fun ⟨henc, hdec⟩ p => ?_, fun h => ⟨h .enc, h .dec⟩⟩
  cases p with
  | enc => exact henc
  | dec => exact hdec

theorem keptTiming_fits {p : Port} (i : PortIn) {ps : PortState} (h : (ps.timing p).fits (outq p ps.core)) :
    (keptTiming p i ps).fits (keptQueue p i ps) := by
  unfold keptTiming keptQueue
  split
  · exact fits_tail h
  · exact h

/-- After an edge without reset the unit's timing fits the queue that the edge leaves. -/
theorem edge_fits {i : PortIn} {ps qs : PortState} {p : Port} (hw : ps.core.wasReset = true) (hr : i.rst = false)
    (h : edge i ps = .next qs) (hfits : (ps.timing p).fits (outq p ps.core)) : (qs.timing p).fits (outq p qs.core) := by
  have hkept := keptTiming_fits i hfits
  obtain ⟨hlen, -, -⟩ := id hkept
  obtain ⟨vs, hq, -⟩ := edge_outq hw hr h p
  rw [edge_timing hw hr h p, hq]
  refine fits_of_waits_eq hkept ?_
  rw [nextTiming_waits, hlen, List.length_append, Nat.add_sub_cancel_left]

theorem edge_reset {i : PortIn} (ps : PortState) (hr : i.rst = true) : edge i ps = .next (resetEdge ps) := by
  simp [edge, hr]

/-- Before the first reset an edge without reset leaves the block as it was (log entry 15). -/
theorem edge_core_of_not_wasReset {i : PortIn} {ps qs : PortState} (hw : ps.core.wasReset = false) (hr : i.rst = false)
    (h : edge i ps = .next qs) : qs.core = ps.core := by
  simp only [edge, hr, hw, Bool.false_eq_true, if_false] at h
  split at h
  · cases h
  · cases h; rfl

/-- Settles O55: a reset empties queues and waiting times, an edge before the first reset is not spoken of, and any other
edge takes and adds as many waiting times as values. -/
theorem edgeKeepsPortInv : Obligations.EdgeKeepsPortInv := by
  intro i ps qs hinv h
  rw [PortState.inv_iff] at hinv ⊢
  cases hr : i.rst with
  | true =>
    cases (edge_reset ps hr).symm.trans h
    intro _ p
    cases p <;> exact ⟨rfl, List.forall_mem_nil _, List.Pairwise.nil⟩
  | false =>
    cases hw : ps.core.wasReset with
    | true => exact fun _ p => edge_fits hw hr h (hinv hw p)
    | false =>
      rw [edge_core_of_not_wasReset hw hr h, hw]
      exact fun hno => absurd hno Bool.false_ne_true

end Sys2Proof.Machine
end

section
/-! SUPPORT. The head of a queue at an output port (30_encoding.md R68, R70): each edge brings it one edge nearer to being
offered, and it stays offered until it is taken. -/

namespace Sys2Proof.Machine

open Sys2Proof

/-- The value `v` is the head of the unit's queue and is offered after at most `n` edges more. -/
def headDue (p : Port) (v : Byte) (n : Nat) (ps : PortState) : Prop :=
  ps.core.wasReset = true ∧ (outq p ps.core).head? = some v ∧ ∃ k ≤ n, (ps.timing p).waits.head? = some k

theorem headVisible_iff (p : Port) (ps : PortState) : headVisible p ps = true ↔ ∃ v, headDue p v 0 ps := by
  rw [headVisible, Bool.and_eq_true, outValid_iff, beq_iff_eq]
  constructor
  · rintro ⟨⟨hw, hq⟩, hwait⟩
    exact ⟨_, hw, List.head?_eq_some_head hq, 0, le_rfl, hwait⟩
  · rintro ⟨v, hw, hv, k, hk, hwait⟩
    rw [Nat.le_zero.1 hk] at hwait
    exact ⟨⟨hw, fun hq => by simp [hq] at hv⟩, hwait⟩

/-- While `rst = 0` a unit offers exactly a head whose waiting time is over. -/
theorem unitOut_outValid_iff {p : Port} {i : PortIn} {ps : PortState} (hw : ps.core.wasReset = true) (hr : i.rst = false) :
    (unitOut p i ps).outValid = true ↔ ∃ v, headDue p v 0 ps := by
  simp only [unitOut, outValidSignal, hr, hw, Bool.false_eq_true, if_false, if_true, headVisible_iff]

/-- What is offered is the head of the queue. -/
theorem unitOut_outData {p : Port} {i : PortIn} {ps : PortState} {v : Byte} (hr : i.rst = false)
    (h : headDue p v 0 ps) : (unitOut p i ps).outData = v := by
  obtain ⟨hw, hv, -⟩ := id h
  obtain ⟨q, hq⟩ := List.head?_eq_some_iff.1 hv
  have hvalid : outValidSignal p i ps = true := (unitOut_outValid_iff hw hr).2 ⟨v, h⟩
  simp [unitOut, outDataSignal, hq, hvalid, hw]

/-- An edge at which the host takes nothing from the unit keeps the head and brings it one edge nearer. -/
theorem edge_headDue {i : PortIn} {ps qs : PortState} {p : Port} {v : Byte} {n : Nat} (hr : i.rst = false)
    (hready : (i.unit p).outReady = false) (h : edge i ps = .next qs) (hdue : headDue p v n ps) :
    headDue p v (n - 1) qs := by
  obtain ⟨hw, hv, k, hk, hwait⟩ := hdue
  have hno : outTransfer p i ps = false := by simp [outTransfer, hready]
  obtain ⟨vs, hq, -⟩ := edge_outq hw hr h p
  refine ⟨edge_wasReset_true hw hr h, ?_, k.pred, Nat.pred_le_pred hk, ?_⟩
  · simp [hq, keptQueue, hno, hv]
  · simp [edge_timing hw hr h p, nextTiming_waits, keptTiming, hno, hwait]

/-- Settles O54: the head that is offered is still the head after the edge, and has no more time to wait. -/
theorem offeredOutputIsHeld : Obligations.OfferedOutputIsHeld := by
  intro i j ps qs p hw hi hj hvalid hready h
  obtain ⟨v, hdue⟩ := (unitOut_outValid_iff hw hi).1 hvalid
  have hdue' := edge_headDue hi hready h hdue
  exact ⟨(unitOut_outValid_iff (edge_wasReset_true hw hi h) hj).2 ⟨v, hdue'⟩,
    (unitOut_outData hj hdue').trans (unitOut_outData hi hdue).symm⟩

theorem runEdges_cons {i : PortIn} {is : List PortIn} {ps qs : PortState} :
    runEdges (i :: is) ps = .next qs ↔ ∃ rs, edge i ps = .next rs ∧ runEdges is rs = .next qs := by
  rw [runEdges]
  cases edge i ps <;> simp

/-- Edges at which the host takes nothing from the unit bring the head as many edges nearer. -/
theorem runEdges_headDue {is : List PortIn} {ps qs : PortState} {p : Port} {v : Byte} {n : Nat}
    (his : ∀ i ∈ is, i.rst = false ∧ (i.unit p).outReady = false) (h : runEdges is ps = .next qs)
    (hdue : headDue p v n ps) : headDue p v (n - is.length) qs := by
  induction is generalizing ps n with
  | nil => cases h; exact hdue
  | cons i is ih =>
    obtain ⟨⟨hr, hready⟩, his⟩ := List.forall_mem_cons.1 his
    obtain ⟨rs, hi, hrs⟩ := runEdges_cons.1 h
    rw [List.length_cons, Nat.add_comm, Nat.sub_add_eq]
    exact ih his hrs (edge_headDue hr hready hi hdue)

/-- The head of a queue is offered within `LATENCY` edges. -/
theorem headDue_latency {p : Port} {ps : PortState} (hinv : ps.Inv) (hw : ps.core.wasReset = true)
    (hq : outq p ps.core ≠ []) : headDue p ((outq p ps.core).head hq) Config.latency ps := by
  obtain ⟨hlen, hle, -⟩ := (ps.inv_iff.1 hinv) hw p
  have hne : (ps.timing p).waits ≠ [] := by rwa [← List.length_pos_iff, hlen, List.length_pos_iff]
  exact ⟨hw, List.head?_eq_some_head hq, _, hle _ (List.head_mem hne), List.head?_eq_some_head hne⟩

/-- Settles O56: the head waits for at most `LATENCY` edges, and each edge takes one off. -/
theorem outputIsOfferedAfterLatency : Obligations.OutputIsOfferedAfterLatency := by
  intro is ps qs p hinv hw hq his hlen h
  have hdue := runEdges_headDue his h (headDue_latency hinv hw hq)
  rw [Nat.sub_eq_zero_of_le hlen] at hdue
  exact (headVisible_iff p qs).2 ⟨_, hdue⟩

end Sys2Proof.Machine
end

section
/-! SUPPORT. When a unit with room becomes ready (30_encoding.md R69; 70_reset_and_hazards.md R183, R191; log entry 9): the
delay after reset and the stalls, counted ahead from the state alone. -/

namespace Sys2Proof.Machine

open Sys2Proof

/-- The edges until a unit that keeps its room and accepts no command is ready, from what is left of the delay after reset,
the number of the edge and what is left of the stall: the delay runs out first, with the stalls that the unit draws
meanwhile, and then the stall that it is in. -/
def edgesToReady (p : Port) : (delay cycle stall : Nat) → Nat
  | 0, _, stall => stall
  | delay + 1, cycle, stall =>
    edgesToReady p delay (cycle + 1) (if stall = 0 then Config.freeStall p cycle else stall - 1) + 1

/-- The same from the state. -/
def PortState.edgesToReady (ps : PortState) (p : Port) : Nat :=
  Machine.edgesToReady p (ps.timing p).readyDelay ps.cycle (ps.timing p).stall

/-- An edge at which a unit with room accepts no command leaves it with room. -/
theorem edge_cmdReady {i : PortIn} {ps qs : PortState} {p : Port} (hready : cmdReady p ps.core = true) (hr : i.rst = false)
    (hno : cmdTransfer p i ps = false) (h : edge i ps = .next qs) : cmdReady p qs.core = true := by
  obtain ⟨hw, hroom⟩ := (cmdReady_iff p ps.core).1 hready
  obtain ⟨vs, hq, hvs⟩ := edge_outq hw hr h p
  have hkept : (keptQueue p i ps).length ≤ (outq p ps.core).length := by
    unfold keptQueue
    split
    · simp
    · exact le_rfl
  rw [hvs hno, List.append_nil] at hq
  rw [cmdReady_iff, hq]
  exact ⟨edge_wasReset_true hw hr h, (Nat.add_le_add_right hkept _).trans hroom⟩

/-- A unit whose count has run out is ready. -/
theorem unitReady_of_edgesToReady {p : Port} {ps : PortState} (hready : cmdReady p ps.core = true)
    (hn : ps.edgesToReady p = 0) : unitReady p ps = true := by
  unfold PortState.edgesToReady at hn
  cases hd : (ps.timing p).readyDelay with
  | zero =>
    rw [hd, edgesToReady] at hn
    simp [unitReady, hready, hd, hn]
  | succ d =>
    rw [hd, edgesToReady] at hn
    exact absurd hn (Nat.succ_ne_zero _)

/-- Each edge at which a unit with room accepts no command takes one off the count. -/
theorem edge_edgesToReady {i : PortIn} {ps qs : PortState} {p : Port} {n : Nat} (hready : cmdReady p ps.core = true)
    (hr : i.rst = false) (h : edge i ps = .next qs) (hn : ps.edgesToReady p = n + 1) : qs.edgesToReady p = n := by
  obtain ⟨hw, -⟩ := (cmdReady_iff p ps.core).1 hready
  obtain ⟨-, -, -, -, hcycle⟩ := edge_cases hw hr h
  unfold PortState.edgesToReady at hn ⊢
  rw [edge_timing hw hr h p, hcycle]
  simp only [nextTiming, hready, if_true]
  cases hd : (ps.timing p).readyDelay with
  | zero =>
    rw [hd, edgesToReady] at hn
    simp [hn, edgesToReady]
  | succ d =>
    rw [hd, edgesToReady] at hn
    exact Nat.succ.inj hn

/-- After as many edges as the count says a unit with room is ready, or it has accepted a command before. -/
theorem ready_after_edgesToReady {is : List PortIn} {ps qs : PortState} {p : Port} (hready : cmdReady p ps.core = true)
    (hlen : is.length = ps.edgesToReady p) (hrst : ∀ i ∈ is, i.rst = false) (h : runEdges is ps = .next qs) :
    unitReady p qs = true
      ∨ ∃ k i rs, is[k]? = some i ∧ runEdges (is.take k) ps = .next rs ∧ cmdTransfer p i rs = true := by
  induction is generalizing ps with
  | nil =>
    cases h
    exact .inl (unitReady_of_edgesToReady hready hlen.symm)
  | cons i is ih =>
    obtain ⟨hr, hrst⟩ := List.forall_mem_cons.1 hrst
    obtain ⟨rs, hi, hrs⟩ := runEdges_cons.1 h
    cases hcmd : cmdTransfer p i ps with
    | true => exact .inr ⟨0, i, ps, rfl, rfl, hcmd⟩
    | false =>
      have hn := edge_edgesToReady hready hr hi hlen.symm
      obtain hdone | ⟨k, j, us, hk, hus, hj⟩ := ih (edge_cmdReady hready hr hcmd hi) hn.symm hrst hrs
      · exact .inl hdone
      · exact .inr ⟨k + 1, j, us, hk, runEdges_cons.2 ⟨rs, hi, hus⟩, hj⟩

/-- Settles O57, with the count from the state as the number of edges. -/
theorem readyWithinFinitelyManyEdges : Obligations.ReadyWithinFinitelyManyEdges :=
  fun ps p hready => ⟨ps.edgesToReady p, fun _ _ hlen hrst h => ready_after_edgesToReady hready hlen hrst h⟩

end Sys2Proof.Machine
end

section
/-! SUPPORT. The alphabet (40_alphabet.md R80 to R86): the two lookups in numbers, the table and the valid codes. -/

namespace Sys2Proof.Machine

open Sys2Proof

/-- `SYMBOL_OF` as a number, range by range in the order of R80. -/
theorem symbolOf_toNat (i : Sextet) : (symbolOf i).toNat =
    if i.toNat ≤ 25 then i.toNat + 0x41 else if i.toNat ≤ 51 then i.toNat - 26 + 0x61
    else if i.toNat ≤ 61 then i.toNat - 52 + 0x30 else if i.toNat = 62 then 0x2B else 0x2F := by
  unfold symbolOf
  split_ifs <;> bv_omega

/-- The ranges of codes of R80 do not meet, so that different indices have different codes. -/
theorem symbolOf_injective : Function.Injective symbolOf := by
  intro i j h
  have hnat : (symbolOf i).toNat = (symbolOf j).toNat := congrArg _ h
  rw [symbolOf_toNat, symbolOf_toNat] at hnat
  apply BitVec.eq_of_toNat_eq
  split_ifs at hnat <;> omega

/-- The valid codes are the ranges of R86. -/
theorem indexOf_valid_iff (c : Byte) : (indexOf c).valid = true ↔
    c = 0x2B ∨ c = 0x2F ∨ (0x30 ≤ c ∧ c ≤ 0x39) ∨ (0x41 ≤ c ∧ c ≤ 0x5A) ∨ (0x61 ≤ c ∧ c ≤ 0x7A) := by
  unfold indexOf
  split_ifs with hupper hlower hdigit hplus hslash
  · exact iff_of_true rfl (.inr (.inr (.inr (.inl hupper))))
  · exact iff_of_true rfl (.inr (.inr (.inr (.inr hlower))))
  · exact iff_of_true rfl (.inr (.inr (.inl hdigit)))
  · exact iff_of_true rfl (.inl hplus)
  · exact iff_of_true rfl (.inr (.inl hslash))
  · exact iff_of_false not_false (by tauto)

theorem indexOf_symbolOf_valid (i : Sextet) : (indexOf (symbolOf i)).valid = true := by
  have hnat := symbolOf_toNat i
  rw [indexOf_valid_iff]
  split_ifs at hnat <;> bv_omega

/-- The symbol of an index that is given as a byte, in the three ranges of R82 that count up from their first code. -/
theorem symbolOf_extractLsb' {x c : Byte}
    (h : (x ≤ 25 ∧ c = x + 0x41) ∨ (26 ≤ x ∧ x ≤ 51 ∧ c = x + 0x47) ∨ (52 ≤ x ∧ x ≤ 61 ∧ c = x - 0x04)) :
    symbolOf (x.extractLsb' 0 6) = c := by
  have hidx : (x.extractLsb' 0 6).toNat = x.toNat % 64 := BitVec.extractLsb'_toNat ..
  unfold symbolOf
  split_ifs <;> bv_omega

theorem symbolOf_indexOf {c : Byte} (h : (indexOf c).valid = true) : symbolOf (indexOf c).idx = c := by
  unfold indexOf at h ⊢
  split_ifs at h ⊢ with hupper hlower hdigit hplus hslash
  · exact symbolOf_extractLsb' (by bv_omega)
  · exact symbolOf_extractLsb' (by bv_omega)
  · exact symbolOf_extractLsb' (by bv_omega)
  · exact hplus.symm
  · exact hslash.symm

theorem indexOf_symbolOf (i : Sextet) : indexOf (symbolOf i) = ⟨true, i⟩ := by
  have hvalid := indexOf_symbolOf_valid i
  have hidx := symbolOf_injective (symbolOf_indexOf hvalid)
  calc indexOf (symbolOf i)
    _ = ⟨(indexOf (symbolOf i)).valid, (indexOf (symbolOf i)).idx⟩ := rfl
    _ = ⟨true, i⟩ := by rw [hvalid, hidx]

/-- A code is valid exactly when it is the code of a symbol. -/
theorem indexOf_valid_iff_symbol (c : Byte) : (indexOf c).valid = true ↔ ∃ i, symbolOf i = c :=
  ⟨fun h => ⟨_, symbolOf_indexOf h⟩, fun ⟨i, hi⟩ => hi ▸ indexOf_symbolOf_valid i⟩

theorem padCode_invalid : (indexOf Config.padCode).valid = false := rfl

theorem symbolOf_ne_padCode (i : Sextet) : symbolOf i ≠ Config.padCode := by
  intro h
  have hvalid := indexOf_symbolOf_valid i
  rw [h, padCode_invalid] at hvalid
  cases hvalid

/-- The table of R81 lists `SYMBOL_OF` in the order of the indices. -/
theorem alphabetTable_eq_ofFn : alphabetTable = List.ofFn fun n : Fin 64 => symbolOf (BitVec.ofFin n) := rfl

theorem alphabetTable_nodup : alphabetTable.Nodup := by
  rw [alphabetTable_eq_ofFn, List.nodup_ofFn]
  exact fun n m h => BitVec.ofFin.inj (symbolOf_injective h)

theorem alphabetTable_getElem? (i : Sextet) : alphabetTable[i.toNat]? = some (symbolOf i) := by
  rw [alphabetTable_eq_ofFn, List.getElem?_ofFn, dif_pos i.isLt]
  rfl

theorem mem_alphabetTable (c : Byte) : c ∈ alphabetTable ↔ (indexOf c).valid = true := by
  rw [indexOf_valid_iff_symbol, alphabetTable_eq_ofFn, List.mem_ofFn]
  exact ⟨fun ⟨n, hn⟩ => ⟨_, hn⟩, fun ⟨i, hi⟩ => ⟨i.toFin, hi⟩⟩

/-- The valid codes, as numbers in ascending order, are the codes of the table in another order. -/
theorem validCodes_perm :
    ((List.range 256).filter fun n => (indexOf (BitVec.ofNat 8 n)).valid).Perm (alphabetTable.map BitVec.toNat) := by
  refine (List.perm_ext_iff_of_nodup (List.nodup_range.filter _)
    (alphabetTable_nodup.map fun _ _ => BitVec.eq_of_toNat_eq)).2 fun n => ?_
  simp only [List.mem_filter, List.mem_range, List.mem_map, mem_alphabetTable]
  constructor
  · rintro ⟨hn, hv⟩
    exact ⟨_, hv, Nat.mod_eq_of_lt hn⟩
  · rintro ⟨c, hc, rfl⟩
    exact ⟨c.isLt, by simpa using hc⟩

/-- Settles O9: the table lists `SYMBOL_OF`, whose numbers are those of the five ranges. -/
theorem symbolOfIsTheTable : Obligations.SymbolOfIsTheTable :=
  ⟨rfl, alphabetTable_nodup, alphabetTable_getElem?, symbolOf_toNat⟩

/-- Settles O10, from the two round trips. -/
theorem lookupsAreInverse : Obligations.LookupsAreInverse := ⟨indexOf_symbolOf, fun _ => symbolOf_indexOf⟩

/-- Settles O11: the valid codes are as many as the entries of the table, and `PAD_CODE` is not one of them. -/
theorem validCodesAreSixtyFour : Obligations.ValidCodesAreSixtyFour := by
  refine ⟨?_, indexOf_valid_iff, by decide, symbolOf_ne_padCode⟩
  rw [validCodes_perm.length_eq, List.length_map]
  rfl

end Sys2Proof.Machine
end

section
/-! SUPPORT. Within an encoder call (41_encoder.md R106, R109): the call's bit stream is a whole number of 6-bit windows, whose
symbols have been appended, and then the pending bits. -/

namespace Sys2Proof.Machine

open Sys2Proof

/-- Bits that fill no window add no symbol. -/
theorem encWindows_append_short {W X : List Bool} (hd : 6 ∣ W.length) (hX : X.length < 6) :
    encWindows (W ++ X) = encWindows W := by
  rw [encWindows_append hd, encWindows, encWindows, windows_short hX, List.append_nil]

theorem encWindows_byteStream (B : List Byte) :
    encWindows (byteStream B) = (List.range (8 * B.length / 6)).map (symbolAt (byteStream B)) := by
  rw [encWindows, ← symbolAt_windows, byteStream_length]

/-- `ENCODE` begins with the symbols of the full windows of the stream. -/
theorem refEncode_eq_encWindows_append (B : List Byte) : ∃ ws, refEncode B = encWindows (byteStream B) ++ ws :=
  ⟨_, (refEncode_eq B).trans (List.append_assoc ..)⟩

/-- `2 * (n mod 3)` bits are pending after `n` bytes. -/
theorem encWidth_of_phase {q : BitVec 2} {n : Nat} (h : q.toNat = n % 3) : encWidth q = 2 * (n % 3) := by
  rw [encWidth, h]

/-- A run whose commands on the encoder are the `ENC.DATA` of one call cuts the call's bit stream into the windows whose
symbols it has appended and the bits still pending. -/
theorem runMoves_encData {ms : List Move} {s t : State} {B : List Byte} (h : runMoves ms s = some t)
    (hb : s.enc.betweenCalls) (hr : Move.reset ∉ ms) (hc : commandsOn .enc ms = B.map .encData) :
    t.enc.phase.toNat = B.length % 3 ∧ t.enc.res.toNat < 2 ^ encWidth t.enc.phase
      ∧ ∃ W, byteStream B = W ++ encPending t.enc ∧ 6 ∣ W.length ∧ t.outputs .enc = s.outputs .enc ++ encWindows W := by
  obtain ⟨hphase, hres⟩ := id hb
  obtain ⟨e, W, hfeed, -, hq, hbound, hs, hd, ho⟩ :=
    encFeed_spec B s.encTotal (by simp [hphase]) (by simp [hphase, hres, encWidth])
  have htotal := runMoves_encTotal h hr
  rw [hc, encApplyAll_data, hfeed] at htotal
  cases htotal
  rw [encPending_betweenCalls (e := s.encTotal) hb, List.nil_append] at hs
  exact ⟨by simpa [hphase] using hq, hbound, W, hs, hd, ho⟩

/-- Settles O17: the residue is the value of the pending bits, which are the last ones of the stream and fill no window. -/
theorem encInvariantWithinCall : Obligations.EncInvariantWithinCall := by
  intro s t ms B h hb hr hc
  obtain ⟨hq, hbound, W, hs, hd, ho⟩ := runMoves_encData h hb hr hc
  have hX : (encPending t.enc).length = 2 * (B.length % 3) := (encPending_length _).trans (encWidth_of_phase hq)
  have hlen : 8 * B.length = W.length + (encPending t.enc).length := by
    rw [← byteStream_length, hs, List.length_append]
  have hlast : sliceOf (byteStream B) (8 * B.length - 2 * (B.length % 3)) (8 * B.length) = encPending t.enc := by
    rw [sliceOf, ← hX, hlen, Nat.add_sub_cancel, Nat.add_sub_cancel_left, hs, List.drop_left, List.take_length]
  refine ⟨hq, by rw [hlast, valOf_encPending hbound], ?_⟩
  rw [← encWindows_byteStream, hs, encWindows_append_short hd (by omega)]
  exact ho

/-- Settles O18: the commands of the call append `ENCODE` to the encoder's outputs, which an idle unit has all delivered. -/
theorem encCallIsEncode : Obligations.EncCallIsEncode := by
  intro s t ms B h hb hr hc
  obtain ⟨hbt, hout⟩ := runMoves_call_outputs (p := .enc) h hr hb hc
  exact ⟨hout, hbt, fun hidle => (State.outputs_of_idle hidle).symm.trans hout⟩

/-- Settles O19: the windows that the call has filled are windows of the stream of every longer call. -/
theorem encOutputsAreNeverTakenBack : Obligations.EncOutputsAreNeverTakenBack := by
  intro s t ms B h hb hr hc
  obtain ⟨-, -, W, hs, hd, ho⟩ := runMoves_encData h hb hr hc
  refine ⟨encWindows W, ho, fun C => ?_⟩
  obtain ⟨ws, hws⟩ := refEncode_eq_encWindows_append (B ++ C)
  rw [byteStream_append, hs, List.append_assoc, encWindows_append hd, List.append_assoc] at hws
  exact ⟨_, hws⟩

end Sys2Proof.Machine
end

section
/-! SUPPORT. The encoder's commands as numbers (41_encoder.md R103, R104, R108): each slice and join of the rules as a quotient,
a remainder or a sum. -/

namespace Sys2Proof.Machine

open Sys2Proof

/-- A slice of a word as a number. -/
theorem extractLsb'_eq_ofNat {n : Nat} (lo len : Nat) (x : BitVec n) :
    x.extractLsb' lo len = BitVec.ofNat len (x.toNat / 2 ^ lo) := by
  apply BitVec.eq_of_toNat_eq
  simp [Nat.shiftRight_eq_div_pow]

/-- The earlier bits of a join are the more significant ones (20_memory.md R43). -/
theorem toNat_append_eq_add {n m : Nat} (a : BitVec n) (b : BitVec m) : (a ++ b).toNat = a.toNat * 2 ^ m + b.toNat := by
  rw [BitVec.toNat_append, ← Nat.shiftLeft_add_eq_or_of_lt b.isLt, Nat.shiftLeft_eq]

theorem ofNat_mod_two_pow (n x : Nat) : BitVec.ofNat n (x % 2 ^ n) = BitVec.ofNat n x := by
  apply BitVec.eq_of_toNat_eq
  simp

theorem encJoin1_toNat (r : BitVec 4) (b : Byte) : (encJoin1 r b).toNat = r.toNat % 4 * 256 + b.toNat := by
  rw [encJoin1, toNat_append_eq_add, BitVec.extractLsb'_toNat]
  rfl

theorem encJoin2_toNat (r : BitVec 4) (b : Byte) : (encJoin2 r b).toNat = r.toNat * 256 + b.toNat :=
  toNat_append_eq_add r b

/-- `ENC.DATA` in phase 0 (R103). -/
theorem encDataUnit_phase_zero {e : EncState} (b : Byte) (h : e.phase = 0) :
    encDataUnit b e = some
      { phase := 1, res := BitVec.ofNat 4 (b.toNat % 4)
        outq := e.outq ++ [symbolOf (BitVec.ofNat 6 (b.toNat / 4))] } := by
  have hres : (b.extractLsb' 0 2).setWidth 4 = BitVec.ofNat 4 (b.toNat % 4) := by
    apply BitVec.eq_of_toNat_eq
    simp
  obtain ⟨q, r, o⟩ := e
  obtain rfl : q = 0 := h
  rw [encDataUnit_zero, hres, extractLsb'_eq_ofNat]
  rfl

/-- `ENC.DATA` in phase 1 (R103). -/
theorem encDataUnit_phase_one {e : EncState} {b : Byte} {x : Nat} (h : e.phase = 1)
    (hx : x = e.res.toNat % 4 * 256 + b.toNat) :
    encDataUnit b e = some
      { phase := 2, res := BitVec.ofNat 4 (x % 16), outq := e.outq ++ [symbolOf (BitVec.ofNat 6 (x / 16))] } := by
  obtain ⟨q, r, o⟩ := e
  obtain rfl : q = 1 := h
  rw [encDataUnit_one, extractLsb'_eq_ofNat, extractLsb'_eq_ofNat, encJoin1_toNat, ← hx, pow_zero, Nat.div_one]
  rw [← ofNat_mod_two_pow 4 x]
  rfl

/-- `ENC.DATA` in phase 2 (R103). -/
theorem encDataUnit_phase_two {e : EncState} {b : Byte} {x : Nat} (h : e.phase = 2)
    (hx : x = e.res.toNat * 256 + b.toNat) :
    encDataUnit b e = some
      { phase := 0, res := 0
        outq := e.outq ++ [symbolOf (BitVec.ofNat 6 (x / 64)), symbolOf (BitVec.ofNat 6 (x % 64))] } := by
  obtain ⟨q, r, o⟩ := e
  obtain rfl : q = 2 := h
  rw [encDataUnit_two, extractLsb'_eq_ofNat, extractLsb'_eq_ofNat, encJoin2_toNat, ← hx, pow_zero, Nat.div_one]
  rw [← ofNat_mod_two_pow 6 x]
  rfl

theorem exec_encData_of_unit {b : Byte} {s : State} {e : EncState} (hr : cmdReady .enc s = true)
    (h : encDataUnit b s.enc = some e) : exec (.encData b) s = .next (s.setEnc e) :=
  (exec_encData_eq_next hr).2 ⟨e, h, rfl⟩

/-- Settles O12, phase by phase. -/
theorem encDataCompletes : Obligations.EncDataCompletes := by
  intro s b hw
  have henabled := enabled_cmd_iff (p := .enc) (packWord 0 b) hw
  refine ⟨decode_packWord_zero .enc b, henabled, fun hroom => ?_⟩
  have hr : cmdReady .enc s = true := henabled.2 hroom
  exact ⟨fun h => exec_encData_of_unit hr (encDataUnit_phase_zero b h),
    fun h => exec_encData_of_unit hr (encDataUnit_phase_one h rfl),
    fun h => exec_encData_of_unit hr (encDataUnit_phase_two h rfl)⟩

theorem valOf_replicate_false (n : Nat) : valOf (List.replicate n false) = 0 := by
  induction n with
  | zero => rfl
  | succ n ih => rw [List.replicate_succ', valOf_append, ih]; rfl

/-- A window filled with zero bits as a number. -/
theorem sextetOf_eq_ofNat (X : List Bool) : sextetOf X = BitVec.ofNat 6 (valOf X * 2 ^ (6 - X.length)) := by
  rw [sextetOf, valOf_append, List.length_replicate, valOf_replicate_false, Nat.add_zero]

theorem valOf_encPending_eq_mod (e : EncState) : valOf (encPending e) = e.res.toNat % 2 ^ encWidth e.phase := by
  simp [encPending]

theorem encTail_length (X : List Bool) :
    (encTail X).length = if X.length = 0 then 0 else (6 - X.length) / 2 + 1 := by
  unfold encTail
  split <;> simp

/-- What `ENC.END` appends, from the width of the residue (R104). -/
theorem encTail_encPending (e : EncState) : encTail (encPending e) =
    if encWidth e.phase = 0 then []
    else symbolOf (BitVec.ofNat 6 (e.res.toNat % 2 ^ encWidth e.phase * 2 ^ (6 - encWidth e.phase)))
      :: List.replicate ((6 - encWidth e.phase) / 2) Config.padCode := by
  rw [encTail, sextetOf_eq_ofNat, valOf_encPending_eq_mod, encPending_length]

/-- An accepted `ENC.END` outside phase 3 appends the last window and its padding. -/
theorem exec_encEnd_completes {s : State} (hr : cmdReady .enc s = true) (hp : s.enc.phase ≠ 3) :
    ∃ t, exec .encEnd s = .next t ∧ t.enc.betweenCalls ∧ t.dec = s.dec
      ∧ t.enc.outq = s.enc.outq ++ encTail (encPending s.enc) := by
  obtain ⟨e, hu, hb, ho⟩ := encEndUnit_spec s.enc hp
  exact ⟨_, (exec_encEnd_eq_next hr).2 ⟨e, hu, rfl⟩, hb, rfl, ho⟩

/-- Settles O13: the last window is the residue times a power of two. -/
theorem encEndCompletes : Obligations.EncEndCompletes := by
  intro s hw hp
  have henabled := fun d => enabled_cmd_iff (p := .enc) (packWord 1 d) hw
  refine ⟨fun d => ⟨decode_packWord_one .enc d, henabled d⟩, fun hroom => ?_⟩
  obtain ⟨t, hx, ⟨hphase, hres⟩, hdec, ho⟩ := exec_encEnd_completes ((henabled 0).2 hroom) hp
  rw [encTail_encPending] at ho
  refine ⟨t, hx, hphase, hres, hdec, fun h => ?_, fun h => ?_, fun h => ?_⟩
  · simpa [h, encWidth] using ho
  · simpa [h, encWidth, Config.padCode] using ho
  · have hlt : s.enc.res.toNat % 16 = s.enc.res.toNat := Nat.mod_eq_of_lt s.enc.res.isLt
    simpa [h, encWidth, hlt, Config.padCode] using ho

/-- Settles O15: the values that `ENC.DATA` appends in each phase, and the length of what `ENC.END` appends. -/
theorem encOutputsPerCommand : Obligations.EncOutputsPerCommand := by
  intro s b hr hp
  constructor
  · rcases phase_cases s.enc.phase with h | h | h | h
    · exact ⟨_, _, exec_encData_of_unit hr (encDataUnit_phase_zero b h), rfl, by simp [h]⟩
    · exact ⟨_, _, exec_encData_of_unit hr (encDataUnit_phase_one h rfl), rfl, by simp [h]⟩
    · exact ⟨_, _, exec_encData_of_unit hr (encDataUnit_phase_two h rfl), rfl, by simp [h]⟩
    · exact absurd h hp
  · obtain ⟨t, hx, -, -, ho⟩ := exec_encEnd_completes hr hp
    refine ⟨t, _, hx, ho, ?_⟩
    rw [encTail_length, encPending_length]
    rcases phase_cases s.enc.phase with h | h | h | h
    · simp [h, encWidth]
    · simp [h, encWidth]
    · simp [h, encWidth]
    · exact absurd h hp

end Sys2Proof.Machine
end

section
/-! SUPPORT. How long `ENCODE` is (41_encoder.md R101, R102, R110): its symbols, then its padding. -/

namespace Sys2Proof.Machine

open Sys2Proof

/-- The number of windows: those that are full, and one that is not unless the bytes come in threes. -/
theorem ceilDiv_windows (n : Nat) : ceilDiv (8 * n) 6 = 8 * n / 6 + if n % 3 = 0 then 0 else 1 := by
  obtain ⟨q, r, hr, rfl⟩ : ∃ q r, r < 3 ∧ n = 3 * q + r := ⟨n / 3, n % 3, Nat.mod_lt _ (by omega), by omega⟩
  rw [ceilDiv, Nat.mul_add_mod, Nat.mod_eq_of_lt hr]
  interval_cases r
  · rw [if_pos rfl]; omega
  · rw [if_neg one_ne_zero]; omega
  · rw [if_neg two_ne_zero]; omega

/-- `ENCODE` is one symbol for each window, the last one not always full, and then the padding (R102, R110). -/
theorem refEncode_eq_symbols_append_padding (B : List Byte) : ∃ vs, (∀ v ∈ vs, ∃ i, v = symbolOf i)
    ∧ refEncode B = vs ++ List.replicate ((3 - B.length % 3) % 3) Config.padCode
    ∧ vs.length = ceilDiv (8 * B.length) 6 := by
  refine ⟨_, ?_, refEncode_eq B, ?_⟩
  · refine List.forall_mem_append.2 ⟨fun v hv => ?_, fun v hv => ?_⟩
    · obtain ⟨j, -, rfl⟩ := List.mem_map.1 hv
      exact ⟨_, rfl⟩
    · split at hv
      · cases hv
      · exact ⟨_, List.mem_singleton.1 hv⟩
  · rw [List.length_append, windows_length, byteStream_length, ceilDiv_windows]
    split <;> rfl

/-- Settles O21: the table is arithmetic on the number of symbols. -/
theorem encodePaddingLaw : Obligations.EncodePaddingLaw := by
  intro B
  obtain ⟨vs, hsymbols, heq, hlen⟩ := refEncode_eq_symbols_append_padding B
  refine ⟨vs, hsymbols, heq, hlen, ?_⟩
  rw [hlen, ceilDiv]
  omega

/-- Settles O20: symbols and padding together are four for each three bytes begun. -/
theorem encodeLengthLaw : Obligations.EncodeLengthLaw := by
  intro B
  obtain ⟨vs, -, heq, hlen⟩ := refEncode_eq_symbols_append_padding B
  rw [heq, List.length_append, List.length_replicate, hlen, ceilDiv, ceilDiv]
  split <;> omega

end Sys2Proof.Machine
end

section
/-! SUPPORT. Within a decoder call (42_decoder.md R135, R136, R139): the bit stream of the surviving codes is a whole number of
8-bit windows, whose bytes have been appended, and then the pending bits. -/

namespace Sys2Proof.Machine

open Sys2Proof

/-- Bits that fill no window add no byte. -/
theorem decWindows_append_short {W X : List Bool} (hd : 8 ∣ W.length) (hX : X.length < 8) :
    decWindows (W ++ X) = decWindows W := by
  rw [decWindows_append hd, decWindows, decWindows, windows_short hX, List.append_nil]

theorem decWindows_sextetStream (F : List Sextet) :
    decWindows (sextetStream F) = (List.range (6 * F.length / 8)).map (byteAt (sextetStream F)) := by
  rw [decWindows, ← byteAt_windows, sextetStream_length]

/-- `6 * n mod 8` bits are pending after `n` surviving codes (10_state.md R25). -/
theorem decWidth_of_phase {q : BitVec 2} {n : Nat} (h : q.toNat = n % 4) : decWidth q = 6 * n % 8 := by
  rw [decWidth, h]
  omega

/-- A run whose commands on the decoder are `DEC.DATA` only feeds their codes to the unit. -/
theorem runMoves_decData {ms : List Move} {s t : State} {T : List Byte} (h : runMoves ms s = some t)
    (hr : Move.reset ∉ ms) (hc : commandsOn .dec ms = T.map .decData) : t.decTotal = decFeed T s.decTotal := by
  rw [runMoves_decTotal h hr, hc, decApplyAll_data]

/-- Settles O27: the residue is the value of the pending bits, which are the last ones of the stream and fill no window. -/
theorem decInvariantWithinCall : Obligations.DecInvariantWithinCall := by
  intro s t ms T h hb hr hc m
  obtain ⟨hphase, hres⟩ := id hb
  obtain ⟨W, hq, hbound, hs, hd, ho⟩ := decFeed_spec T s.decTotal (by simp [hphase, hres, decWidth])
  rw [decPending_betweenCalls (d := s.decTotal) hb, List.nil_append] at hs
  rw [← runMoves_decData h hr hc] at hq hbound hs ho
  have hq : t.dec.phase.toNat = m % 4 := by simpa [hphase] using hq
  have hX : (decPending t.decTotal).length = 6 * m % 8 := (decPending_length _).trans (decWidth_of_phase hq)
  have hlen : 6 * m = W.length + (decPending t.decTotal).length := by
    rw [← sextetStream_length, hs, List.length_append]
  have hlast : sliceOf (sextetStream (surviving T)) (6 * m - 6 * m % 8) (6 * m) = decPending t.decTotal := by
    rw [sliceOf, ← hX, hlen, Nat.add_sub_cancel, Nat.add_sub_cancel_left, hs, List.drop_left, List.take_length]
  refine ⟨hq, by rw [hlast, valOf_decPending hbound]; rfl, ?_⟩
  rw [← decWindows_sextetStream, hs, decWindows_append_short hd (by omega)]
  exact ho

/-- Settles O28: the commands of the call append `DECODE` to the decoder's outputs, which an idle unit has all delivered. -/
theorem decCallIsDecode : Obligations.DecCallIsDecode := by
  intro s t ms T h hb hr hc
  obtain ⟨hbt, hout⟩ := runMoves_call_outputs (p := .dec) h hr hb hc
  exact ⟨hout, hbt, fun hidle => (State.outputs_of_idle hidle).symm.trans hout⟩

/-- Settles O30: the unit sees the indices of the surviving codes only. -/
theorem foreignCodesDoNotMatter : Obligations.ForeignCodesDoNotMatter := by
  intro s t t' ms ms' T T' h h' hr hr' hc hc' hfilter
  have hF : surviving T = surviving T' := congrArg (List.map fun c => (indexOf c).idx) hfilter
  have htotal : t.decTotal = t'.decTotal := by
    rw [runMoves_decData h hr hc, runMoves_decData h' hr' hc', decFeed_surviving, decFeed_surviving, hF]
  exact DecState.mk.inj htotal

end Sys2Proof.Machine
end

section
/-! SUPPORT. The round trip (42_decoder.md R138): the codes of `ENCODE(B)` that survive the filter have the bit stream of `B`
and then zero bits that fill no window. -/

namespace Sys2Proof.Machine

open Sys2Proof

/-- Every bit sequence is the bits of a value. -/
theorem exists_bitsOf_eq {n : Nat} {w : List Bool} (h : w.length = n) : ∃ v : BitVec n, bitsOf v = w := by
  induction n generalizing w with
  | zero => exact ⟨0, (List.eq_nil_of_length_eq_zero h).symm⟩
  | succ n ih =>
    have hne : w ≠ [] := List.ne_nil_of_length_eq_add_one h
    obtain ⟨v, hv⟩ := ih (w := w.dropLast) (by simp [h])
    have hlast : bitsOf (BitVec.ofBool (w.getLast hne)) = [w.getLast hne] := by cases w.getLast hne <;> rfl
    exact ⟨v ++ BitVec.ofBool (w.getLast hne), by rw [bitsOf_append, hv, hlast, List.dropLast_concat_getLast hne]⟩

/-- The windows of a stream of values of the window's width are the values, one by one. -/
theorem windows_flatMap_bitsOf {α : Type} {n : Nat} (hn : 0 < n) (f : List Bool → α) (L : List (BitVec n)) :
    windows n f (L.flatMap bitsOf) = L.map fun v => f (bitsOf v) := by
  induction L with
  | nil => exact windows_short hn
  | cons v L ih =>
    rw [List.flatMap_cons, windows_append hn (by simp), windows_one (bitsOf_length v) hn, ih]
    rfl

theorem encWindows_sextetStream (F : List Sextet) : encWindows (sextetStream F) = F.map symbolOf :=
  (windows_flatMap_bitsOf (by decide) _ F).trans (by simp)

theorem decWindows_byteStream (B : List Byte) : decWindows (byteStream B) = B :=
  (windows_flatMap_bitsOf (by decide) _ B).trans (by simp)

/-- Every bit sequence is the bits of some indices and a rest that fills no window. -/
theorem exists_sextetStream_append (S : List Bool) : ∃ F X, S = sextetStream F ++ X ∧ X.length < 6 := by
  by_cases hS : S.length < 6
  · exact ⟨[], S, rfl, hS⟩
  · obtain ⟨v, hv⟩ := exists_bitsOf_eq (n := 6) (w := S.take 6) (by simp; omega)
    obtain ⟨F, X, hrest, hX⟩ := exists_sextetStream_append (S.drop 6)
    refine ⟨v :: F, X, ?_, hX⟩
    rw [sextetStream_cons, hv, List.append_assoc, ← hrest, List.take_append_drop]
termination_by S.length
decreasing_by simp; omega

theorem surviving_append (T U : List Byte) : surviving (T ++ U) = surviving T ++ surviving U := by
  simp [surviving]

/-- Symbols survive the filter with their indices (R85). -/
theorem surviving_map_symbolOf (F : List Sextet) : surviving (F.map symbolOf) = F := by
  induction F with
  | nil => rfl
  | cons v F ih => rw [List.map_cons, surviving_cons_valid (indexOf_symbolOf_valid v), indexOf_symbolOf, ih]

/-- Padding does not survive the filter. -/
theorem surviving_replicate_padCode (n : Nat) : surviving (List.replicate n Config.padCode) = [] := by
  induction n with
  | zero => rfl
  | succ n ih => rw [List.replicate_succ, surviving_cons_invalid padCode_invalid, ih]

/-- The index of a window filled with zero bits has the bits of the filled window. -/
theorem bitsOf_sextetOf {X : List Bool} (hX : X.length ≤ 6) :
    bitsOf (sextetOf X) = X ++ List.replicate (6 - X.length) false := by
  obtain ⟨v, hv⟩ := exists_bitsOf_eq (n := 6) (w := X ++ List.replicate (6 - X.length) false) (by simp [hX])
  rw [sextetOf, ← hv, valOf_bitsOf, BitVec.ofNat_toNat, BitVec.setWidth_eq]

/-- What `ENC.END` appends for the pending bits decodes to them and to fewer than eight bits more. -/
theorem sextetStream_surviving_encTail {X : List Bool} (hX : X.length ≤ 6) :
    ∃ Z, sextetStream (surviving (encTail X)) = X ++ Z ∧ Z.length < 8 := by
  unfold encTail
  split
  · rename_i h0
    exact ⟨[], by rw [List.eq_nil_of_length_eq_zero h0]; rfl, by simp⟩
  · refine ⟨List.replicate (6 - X.length) false, ?_, by rw [List.length_replicate]; omega⟩
    rw [surviving_cons_valid (indexOf_symbolOf_valid _), indexOf_symbolOf, surviving_replicate_padCode,
      sextetStream_cons, sextetStream_nil, List.append_nil, bitsOf_sextetOf hX]

/-- The codes of `ENCODE(B)` carry the bit stream of `B` and fewer than eight bits more. -/
theorem sextetStream_surviving_refEncode (B : List Byte) :
    ∃ Z, sextetStream (surviving (refEncode B)) = byteStream B ++ Z ∧ Z.length < 8 := by
  obtain ⟨F, X, hs, hX⟩ := exists_sextetStream_append (byteStream B)
  obtain ⟨Z, hZ, hlen⟩ := sextetStream_surviving_encTail hX.le
  refine ⟨Z, ?_, hlen⟩
  rw [refEncode_of_stream_eq hs (by simp) hX, encWindows_sextetStream, surviving_append, surviving_map_symbolOf,
    sextetStream_append, hZ, hs, List.append_assoc]

/-- Settles O31: the full windows of the stream that `ENCODE(B)` carries are the bytes of `B`. -/
theorem decodeOfEncode : Obligations.DecodeOfEncode := by
  intro B
  obtain ⟨Z, hs, hZ⟩ := sextetStream_surviving_refEncode B
  rw [refDecode_of_stream_eq hs (by simp) hZ, decWindows_byteStream]

/-- Settles O32: the encoder has appended `ENCODE(B)`, and the decoder appends `DECODE` of it. -/
theorem roundTripThroughBothUnits : Obligations.RoundTripThroughBothUnits := by
  refine ⟨decodeOfEncode, fun s t s' t' ms ms' B X h hb hr hc hX h' hb' hr' hc' => ?_⟩
  obtain ⟨henc, -⟩ := encCallIsEncode s t ms B h hb hr hc
  obtain ⟨hdec, -⟩ := decCallIsDecode s' t' ms' X h' hb' hr' hc'
  obtain rfl : X = refEncode B := List.append_cancel_left (hX.symm.trans henc)
  rwa [decodeOfEncode B] at hdec

end Sys2Proof.Machine
end

section
/-! SUPPORT. The decoder's commands as numbers (42_decoder.md R131 to R134): each slice and join of the rules as a quotient, a
remainder or a sum; and how long `DECODE` is. -/

namespace Sys2Proof.Machine

open Sys2Proof

/-- The low bits of a word, in a register of another width, as a number. -/
theorem setWidth_extractLsb'_zero {n : Nat} (len m : Nat) (x : BitVec n) :
    (x.extractLsb' 0 len).setWidth m = BitVec.ofNat m (x.toNat % 2 ^ len) := by
  apply BitVec.eq_of_toNat_eq
  simp

theorem decJoin1_toNat (r v : Sextet) : (decJoin1 r v).toNat = r.toNat * 64 + v.toNat := toNat_append_eq_add r v

theorem decJoin2_toNat (r v : Sextet) : (decJoin2 r v).toNat = r.toNat % 16 * 64 + v.toNat := by
  rw [decJoin2, toNat_append_eq_add, BitVec.extractLsb'_toNat]
  rfl

theorem decJoin3_toNat (r v : Sextet) : (decJoin3 r v).toNat = r.toNat % 4 * 64 + v.toNat := by
  rw [decJoin3, toNat_append_eq_add, BitVec.extractLsb'_toNat]
  rfl

/-- A surviving code in phase 0 (R133). -/
theorem decIndexUnit_phase_zero {d : DecState} (v : Sextet) (h : d.phase = 0) :
    decIndexUnit v d = { phase := 1, res := v, outq := d.outq } := by
  obtain ⟨q, r, o⟩ := d
  obtain rfl : q = 0 := h
  exact decIndexUnit_zero v r o

/-- A surviving code in phase 1 (R133). -/
theorem decIndexUnit_phase_one {d : DecState} {v : Sextet} {x : Nat} (h : d.phase = 1)
    (hx : x = d.res.toNat * 64 + v.toNat) :
    decIndexUnit v d =
      { phase := 2, res := BitVec.ofNat 6 (x % 16), outq := d.outq ++ [BitVec.ofNat 8 (x / 16)] } := by
  obtain ⟨q, r, o⟩ := d
  obtain rfl : q = 1 := h
  rw [decIndexUnit_one, setWidth_extractLsb'_zero, extractLsb'_eq_ofNat, decJoin1_toNat, ← hx]
  rfl

/-- A surviving code in phase 2 (R133). -/
theorem decIndexUnit_phase_two {d : DecState} {v : Sextet} {x : Nat} (h : d.phase = 2)
    (hx : x = d.res.toNat % 16 * 64 + v.toNat) :
    decIndexUnit v d =
      { phase := 3, res := BitVec.ofNat 6 (x % 4), outq := d.outq ++ [BitVec.ofNat 8 (x / 4)] } := by
  obtain ⟨q, r, o⟩ := d
  obtain rfl : q = 2 := h
  rw [decIndexUnit_two, setWidth_extractLsb'_zero, extractLsb'_eq_ofNat, decJoin2_toNat, ← hx]
  rfl

/-- A surviving code in phase 3 (R133). -/
theorem decIndexUnit_phase_three {d : DecState} {v : Sextet} {x : Nat} (h : d.phase = 3)
    (hx : x = d.res.toNat % 4 * 64 + v.toNat) :
    decIndexUnit v d = { phase := 0, res := 0, outq := d.outq ++ [BitVec.ofNat 8 x] } := by
  have hjoin : decJoin3 d.res v = BitVec.ofNat 8 x := by rw [hx, ← decJoin3_toNat]; simp
  obtain ⟨q, r, o⟩ := d
  obtain rfl : q = 3 := h
  rw [decIndexUnit_three, hjoin]

/-- An accepted code outside the alphabet is discarded (R131). -/
theorem exec_decData_invalid {c : Byte} {s : State} (hr : cmdReady .dec s = true) (h : (indexOf c).valid = false) :
    exec (.decData c) s = .next s := by
  rw [exec_decData_ready hr, decDataUnit_invalid h]
  rfl

/-- An accepted code of the alphabet does what its index does to the unit. -/
theorem exec_decData_of_index {c : Byte} {v : Sextet} {s : State} {d : DecState} (hr : cmdReady .dec s = true)
    (hc : indexOf c = ⟨true, v⟩) (h : decIndexUnit v s.dec = d) : exec (.decData c) s = .next (s.setDec d) := by
  rw [exec_decData_ready hr, decDataUnit_valid (by rw [hc]), hc, h]

/-- Settles O24: a foreign code is discarded, and a code with an index is run phase by phase. -/
theorem decDataCompletes : Obligations.DecDataCompletes := by
  intro s c hw
  have henabled := enabled_cmd_iff (p := .dec) (packWord 0 c) hw
  refine ⟨decode_packWord_zero .dec c, henabled, fun hroom => ?_⟩
  have hr : cmdReady .dec s = true := henabled.2 hroom
  exact ⟨exec_decData_invalid hr, fun v hc =>
    ⟨fun h => exec_decData_of_index hr hc (decIndexUnit_phase_zero v h),
      fun h => exec_decData_of_index hr hc (decIndexUnit_phase_one h rfl),
      fun h => exec_decData_of_index hr hc (decIndexUnit_phase_two h rfl),
      fun h => exec_decData_of_index hr hc (decIndexUnit_phase_three h rfl)⟩⟩

/-- Settles O25: an accepted `DEC.END` clears phase and residue and keeps the queue. -/
theorem decEndCompletes : Obligations.DecEndCompletes := by
  intro s hw
  have henabled := fun d => enabled_cmd_iff (p := .dec) (packWord 1 d) hw
  exact ⟨fun d => ⟨decode_packWord_one .dec d, henabled d⟩,
    fun hroom => ⟨_, exec_decEnd_ready ((henabled 0).2 hroom), rfl, rfl⟩⟩

theorem refDecode_length (T : List Byte) : (refDecode T).length = 6 * (surviving T).length / 8 := by
  rw [refDecode_eq, windows_length, sextetStream_length]

/-- Settles O29: four surviving codes are three bytes, and the rest is arithmetic on `r`. -/
theorem decodeLengthLaw : Obligations.DecodeLengthLaw := by
  intro T k r hlen hr
  rw [refDecode_length, hlen]
  refine ⟨rfl, by omega, ?_⟩
  split <;> omega

end Sys2Proof.Machine
end

section
/-! SUPPORT. Transactions of different units (10_state.md R29; 60_exceptions.md R165): neither sees the other's unit, so they
may be swapped. -/

namespace Sys2Proof.Machine

open Sys2Proof

/-- The parts of different units are put in independently, as long as both bring the same reset flag. -/
theorem State.withUnitOf_comm {p q : Port} (u : State) {a b : State} (hne : p ≠ q) (hw : a.wasReset = b.wasReset) :
    (u.withUnitOf p a).withUnitOf q b = (u.withUnitOf q b).withUnitOf p a := by
  cases p with
  | enc =>
    cases q with
    | enc => exact absurd rfl hne
    | dec => simp [State.withUnitOf, hw]
  | dec =>
    cases q with
    | enc => simp [State.withUnitOf, hw]
    | dec => exact absurd rfl hne

/-- A transaction of a unit is no reset, so it keeps the reset flag. -/
theorem perform_unit_keeps_wasReset {m : Move} {p : Port} {s t : State} (hm : m.port = some p)
    (h : perform m s = .next t) : t.wasReset = s.wasReset :=
  perform_keeps_wasReset (fun e => by cases e; cases hm) h

/-- After a transaction of one unit, the other unit still is as it was. -/
theorem withUnitOf_perform_foreign {m : Move} {p q : Port} {s a : State} (hm : m.port = some p) (hne : p ≠ q)
    (h : perform m s = .next a) : s.withUnitOf q a = s := by
  rw [perform_frame hm h, State.withUnitOf_withUnitOf_of_ne s s a hne (perform_unit_keeps_wasReset hm h),
    State.withUnitOf_self]

/-- Whether a transaction of one unit is enabled does not depend on one of the other. -/
theorem enabled_of_foreign {m n : Move} {p q : Port} {s a : State} (hm : m.port = some p) (hn : n.port = some q)
    (hne : p ≠ q) (h : perform m s = .next a) : enabled n a = enabled n s := by
  rw [← enabled_withUnitOf s a hn, withUnitOf_perform_foreign hm hne h]

/-- The second of two transactions of different units does to the start what it does after the first, and the first then does
what it did. -/
theorem perform_swap_of_units {m n : Move} {p q : Port} {s a t : State} (hm : m.port = some p) (hn : n.port = some q)
    (hne : p ≠ q) (ha : perform m s = .next a) (ht : perform n a = .next t) :
    ∃ b, perform n s = .next b ∧ perform m b = .next t := by
  have hwa : a.wasReset = s.wasReset := perform_unit_keeps_wasReset hm ha
  have hwt : t.wasReset = a.wasReset := perform_unit_keeps_wasReset hn ht
  have hn' := perform_withUnitOf s hn ht
  rw [withUnitOf_perform_foreign hm hne ha] at hn'
  have hm' := perform_withUnitOf (s.withUnitOf q t) hm ha
  rw [← State.withUnitOf_comm s hne (hwt.trans hwa).symm, State.withUnitOf_self,
    ← State.withUnitOf_comm s hne hwt.symm, ← perform_frame hm ha, ← perform_frame hn ht] at hm'
  exact ⟨_, hn', hm'⟩

end Sys2Proof.Machine
end

section
/-! SUPPORT. A command and a pop of one unit (60_exceptions.md R165): the pop takes the head of the queue and the command
appends behind it, so neither sees whether the other has happened. -/

namespace Sys2Proof.Machine

open Sys2Proof

/-- An accepted command answers a next state unless it is an encoder command in phase 3 (10_state.md R21, R31). -/
theorem exec_ready_next_iff {i : Instr} {s : State} (hr : cmdReady i.port s = true) :
    (∃ t, exec i s = .next t) ↔ (i.port = .enc → s.enc.phase ≠ 3) := by
  cases i with
  | encData b =>
    simp [exec_encData_eq_next hr, Instr.port, ← Option.ne_none_iff_exists', encDataUnit_eq_none_iff]
  | encEnd =>
    simp [exec_encEnd_eq_next hr, Instr.port, ← Option.ne_none_iff_exists', encEndUnit_eq_none_iff]
  | decData c => exact iff_of_true ⟨_, exec_decData_ready hr⟩ (fun h => nomatch h)
  | decEnd => exact iff_of_true ⟨_, exec_decEnd_ready hr⟩ (fun h => nomatch h)

/-- A pop makes room: a unit ready for a command stays ready. -/
theorem cmdReady_popUnit {p : Port} {s : State} (hr : cmdReady p s = true) : cmdReady p (popUnit p s) = true := by
  rw [cmdReady_iff] at hr ⊢
  rw [wasReset_pop, outq_pop, List.length_tail]
  exact ⟨hr.1, by omega⟩

/-- A command leaves what was queued, so a unit that offers a value goes on offering one. -/
theorem outValid_cmd {p q : Port} {w : CmdWord} {s t : State} (hv : outValid p s = true)
    (h : perform (.cmd q w) s = .next t) : outValid p t = true := by
  rw [outValid_iff] at hv ⊢
  obtain ⟨vs, hvs⟩ := exec_outq_append p h
  exact ⟨perform_wasReset_true h hv.1, by simp [hvs, hv.2]⟩

theorem popUnit_phase (p : Port) (s : State) : (popUnit p s).enc.phase = s.enc.phase :=
  (congrArg EncState.phase (popUnit_encTotal p s) :)

/-- `DEC.END` does not look at what is queued (R134). -/
theorem decEndUnit_queue (d : DecState) (vs : List Byte) :
    decEndUnit { d with outq := vs ++ d.outq } = { decEndUnit d with outq := vs ++ (decEndUnit d).outq } := rfl

/-- What a pop takes from the encoder is the head of its queue alone. -/
theorem enc_eq_of_popUnit {s : State} {v : Byte} {q : List Byte} (hq : s.enc.outq = v :: q) :
    s.enc = { (popUnit .enc s).enc with outq := [v] ++ (popUnit .enc s).enc.outq } := by
  rw [popUnit_enc_cons hq]
  exact congrArg (EncState.mk s.enc.phase s.enc.res) hq

theorem dec_eq_of_popUnit {s : State} {v : Byte} {q : List Byte} (hq : s.dec.outq = v :: q) :
    s.dec = { (popUnit .dec s).dec with outq := [v] ++ (popUnit .dec s).dec.outq } := by
  rw [popUnit_dec_cons hq]
  exact congrArg (DecState.mk s.dec.phase s.dec.res) hq

/-- To write a unit after a pop is to write it with the head still queued and then pop. -/
theorem setEnc_popUnit {s : State} {v : Byte} {q : List Byte} (hq : s.enc.outq = v :: q) (e : EncState) :
    (popUnit .enc s).setEnc e = popUnit .enc (s.setEnc { e with outq := [v] ++ e.outq }) := by
  rw [popUnit_enc_cons hq, popUnit_enc_cons (s := s.setEnc _) rfl]
  rfl

theorem setDec_popUnit {s : State} {v : Byte} {q : List Byte} (hq : s.dec.outq = v :: q) (d : DecState) :
    (popUnit .dec s).setDec d = popUnit .dec (s.setDec { d with outq := [v] ++ d.outq }) := by
  rw [popUnit_dec_cons hq, popUnit_dec_cons (s := s.setDec _) rfl]
  rfl

/-- A call's end counts a value the same whether popped or still queued. -/
theorem Record.close_deliver (r : Record) (v : Byte) (n : Nat) :
    (r.deliver v).close n = (r.close (n + 1)).deliver v := by
  simp [Record.close, Record.deliver, Nat.add_assoc, Nat.add_comm 1 n]

theorem closeEncCall_popUnit {s : State} {v : Byte} {q : List Byte} (hq : s.enc.outq = v :: q) :
    closeEncCall (popUnit .enc s) = popUnit .enc (closeEncCall s) := by
  rw [popUnit_enc_cons hq, popUnit_enc_cons (s := closeEncCall s) hq]
  refine state_ext rfl rfl rfl rfl ?_ rfl
  simp [closeEncCall, hq, Record.close_deliver]

theorem closeDecCall_popUnit {s : State} {v : Byte} {q : List Byte} (hq : s.dec.outq = v :: q) :
    closeDecCall (popUnit .dec s) = popUnit .dec (closeDecCall s) := by
  rw [popUnit_dec_cons hq, popUnit_dec_cons (s := closeDecCall s) hq]
  refine state_ext rfl rfl rfl rfl rfl ?_
  simp [closeDecCall, hq, Record.close_deliver]

/-- What a command does after a pop of its unit, it does before it: its rule does not look at the queue, and it appends behind
the head that the pop takes. -/
theorem exec_before_popUnit {i : Instr} {p : Port} {s t : State} (hi : i.port = p) (hr : cmdReady p s = true)
    (hv : outValid p s = true) (h : exec i (popUnit p s) = .next t) : ∃ u, exec i s = .next u ∧ t = popUnit p u := by
  have hready := cmdReady_popUnit hr
  obtain ⟨-, hne⟩ := (outValid_iff p s).1 hv
  obtain ⟨v, q, hq⟩ := List.exists_cons_of_ne_nil hne
  cases i with
  | encData b =>
    obtain rfl : Port.enc = p := hi
    obtain ⟨e, hu, rfl⟩ := (exec_encData_eq_next hready).1 h
    have hunit := encDataUnit_queue b _ e [v] hu
    rw [← enc_eq_of_popUnit hq] at hunit
    exact ⟨_, (exec_encData_eq_next hr).2 ⟨_, hunit, rfl⟩, setEnc_popUnit hq e⟩
  | encEnd =>
    obtain rfl : Port.enc = p := hi
    obtain ⟨e, hu, rfl⟩ := (exec_encEnd_eq_next hready).1 h
    have hunit := encEndUnit_queue _ e [v] hu
    rw [← enc_eq_of_popUnit hq] at hunit
    refine ⟨_, (exec_encEnd_eq_next hr).2 ⟨_, hunit, rfl⟩, ?_⟩
    rw [setEnc_popUnit hq, closeEncCall_popUnit rfl]
  | decData c =>
    obtain rfl : Port.dec = p := hi
    cases (exec_decData_ready hready).symm.trans h
    refine ⟨_, exec_decData_ready hr, ?_⟩
    rw [setDec_popUnit hq, ← decDataUnit_queue, ← dec_eq_of_popUnit hq]
  | decEnd =>
    obtain rfl : Port.dec = p := hi
    cases (exec_decEnd_ready hready).symm.trans h
    refine ⟨_, exec_decEnd_ready hr, ?_⟩
    rw [setDec_popUnit hq, closeDecCall_popUnit rfl, ← decEndUnit_queue, ← dec_eq_of_popUnit hq]

/-- A command and a pop of its unit, both enabled, give the same result in either order. -/
theorem exec_popUnit_eq_next {i : Instr} {p : Port} {s t : State} (hi : i.port = p) (hr : cmdReady p s = true)
    (hv : outValid p s = true) : exec i (popUnit p s) = .next t ↔ ∃ u, exec i s = .next u ∧ t = popUnit p u := by
  refine ⟨exec_before_popUnit hi hr hv, ?_⟩
  rintro ⟨u, hu, rfl⟩
  have hphase : i.port = .enc → (popUnit p s).enc.phase ≠ 3 := by
    rw [popUnit_phase]
    exact (exec_ready_next_iff (hi.symm ▸ hr)).1 ⟨u, hu⟩
  obtain ⟨t, ht⟩ := (exec_ready_next_iff (hi.symm ▸ cmdReady_popUnit hr)).2 hphase
  obtain ⟨u', hu', rfl⟩ := exec_before_popUnit hi hr hv ht
  cases hu.symm.trans hu'
  exact ht

end Sys2Proof.Machine
end

section
/-! SUPPORT. Transfers that can meet at one clock edge (30_encoding.md R67; 60_exceptions.md R165). None disables another, and
two of them give the same result when swapped, so a list of them gives the same result in every order. -/

namespace Sys2Proof.Machine

open Sys2Proof

/-- Two transactions that can be transfers of one edge: of different units, or a command and a pop of one unit (R165). -/
inductive Simultaneous : Move → Move → Prop where
  | units {m n : Move} {p q : Port} (hm : m.port = some p) (hn : n.port = some q) (hne : p ≠ q) : Simultaneous m n
  | popCmd (p : Port) (w : CmdWord) : Simultaneous (.pop p) (.cmd p w)
  | cmdPop (p : Port) (w : CmdWord) : Simultaneous (.cmd p w) (.pop p)

theorem Simultaneous.symm {m n : Move} (h : Simultaneous m n) : Simultaneous n m := by
  cases h with
  | units hm hn hne => exact .units hn hm hne.symm
  | popCmd p w => exact .cmdPop p w
  | cmdPop p w => exact .popCmd p w

/-- A transfer leaves the others of its edge enabled. -/
theorem Simultaneous.enabled_after {m n : Move} {s a : State} (h : Simultaneous m n) (hn : enabled n s = true)
    (ha : perform m s = .next a) : enabled n a = true := by
  cases h with
  | units hm hp hne => rwa [enabled_of_foreign hm hp hne ha]
  | popCmd p w =>
    obtain ⟨-, rfl⟩ := execPop_eq_next.1 ha
    exact cmdReady_popUnit hn
  | cmdPop p w => exact outValid_cmd hn ha

/-- Two transfers of one edge give the same result when swapped. -/
theorem Simultaneous.perform_swap {m n : Move} {s a t : State} (h : Simultaneous m n) (hm : enabled m s = true)
    (hn : enabled n s = true) (ha : perform m s = .next a) (ht : perform n a = .next t) :
    ∃ b, perform n s = .next b ∧ perform m b = .next t := by
  cases h with
  | units hp hq hne => exact perform_swap_of_units hp hq hne ha ht
  | popCmd p w =>
    obtain ⟨hw, rfl⟩ := execPop_eq_next.1 ha
    obtain ⟨u, hu, rfl⟩ := (exec_popUnit_eq_next (decode_port p w) hn hm).1 ht
    exact ⟨u, hu, execPop_eq_next.2 ⟨perform_wasReset_true (m := .cmd p w) hu hw, rfl⟩⟩
  | cmdPop p w =>
    obtain ⟨hw, -⟩ := (outValid_iff p s).1 hn
    obtain ⟨-, rfl⟩ := execPop_eq_next.1 ht
    exact ⟨_, execPop_eq_next.2 ⟨hw, rfl⟩, (exec_popUnit_eq_next (decode_port p w) hm hn).2 ⟨a, ha, rfl⟩⟩

/-- Two neighbouring transfers of a run can be swapped. -/
theorem Simultaneous.runMoves_swap {m n : Move} {ms : List Move} {s t : State} (h : Simultaneous m n)
    (hm : enabled m s = true) (hn : enabled n s = true) (hrun : runMoves (m :: n :: ms) s = some t) :
    runMoves (n :: m :: ms) s = some t := by
  obtain ⟨-, a, ha, hrun⟩ := runMoves_cons.1 hrun
  obtain ⟨-, c, hc, hrun⟩ := runMoves_cons.1 hrun
  obtain ⟨b, hb, hc⟩ := h.perform_swap hm hn ha hc
  exact runMoves_cons.2 ⟨hn, b, hb, runMoves_cons.2 ⟨h.symm.enabled_after hm hb, c, hc, hrun⟩⟩

/-- Settles O41: each order's result is the other's, so both give it or neither gives any. -/
theorem simultaneousTransfersCommute : Obligations.SimultaneousTransfersCommute := by
  intro s m n hm hn hkinds
  have h : Simultaneous m n := by
    obtain ⟨hm, hn⟩ | ⟨p, w, rfl, rfl⟩ := hkinds
    · exact .units hm hn (by decide)
    · exact .popCmd p w
  exact Option.ext fun t => ⟨h.runMoves_swap hm hn, h.symm.runMoves_swap hn hm⟩

/-- The transfers of one edge: each pair may meet at it, and each is enabled. -/
structure Transfers (ms : List Move) (s : State) : Prop where
  pairs : ms.Pairwise Simultaneous
  allEnabled : ∀ m ∈ ms, enabled m s = true

/-- After the first transfer of an edge the rest still are transfers of one edge. -/
theorem Transfers.tail {m : Move} {ms : List Move} {s a : State} (h : Transfers (m :: ms) s)
    (ha : perform m s = .next a) : Transfers ms a := by
  obtain ⟨hm, hpairs⟩ := List.pairwise_cons.1 h.pairs
  exact ⟨hpairs, fun n hn => (hm n hn).enabled_after (h.allEnabled n (.tail m hn)) ha⟩

theorem Transfers.perm {ms ns : List Move} {s : State} (h : Transfers ms s) (hperm : ms.Perm ns) : Transfers ns s :=
  ⟨hperm.pairwise h.pairs Simultaneous.symm, fun m hm => h.allEnabled m (hperm.mem_iff.2 hm)⟩

/-- Performed one after another, transfers of one edge are each enabled when they happen. -/
theorem Transfers.runMoves_of_performList {ms : List Move} {s t : State} (h : Transfers ms s)
    (hlist : performList ms s = .next t) : runMoves ms s = some t := by
  induction ms generalizing s with
  | nil => cases hlist; rfl
  | cons m ms ih =>
    obtain ⟨a, ha, hlist⟩ := performList_cons.1 hlist
    exact runMoves_cons.2 ⟨h.allEnabled m (.head ms), a, ha, ih (h.tail ha) hlist⟩

/-- The transfers of one edge give the same result in every order, swap by swap. -/
theorem Transfers.runMoves_perm {ms ns : List Move} {s t : State} (h : Transfers ms s) (hperm : ms.Perm ns)
    (hrun : runMoves ms s = some t) : runMoves ns s = some t := by
  induction hperm generalizing s with
  | nil => exact hrun
  | cons m _ ih =>
    obtain ⟨hm, a, ha, hrun⟩ := runMoves_cons.1 hrun
    exact runMoves_cons.2 ⟨hm, a, ha, ih (h.tail ha) hrun⟩
  | swap m n ms =>
    obtain ⟨hn, -⟩ := List.pairwise_cons.1 h.pairs
    exact (hn m (.head ms)).runMoves_swap (h.allEnabled n (.head _)) (h.allEnabled m (.tail n (.head ms))) hrun
  | trans hms _ ih ih' => exact ih' (h.perm hms) (ih h hrun)

end Sys2Proof.Machine
end

section
/-! SUPPORT. A clock edge without reset (30_encoding.md R67): its transfers are enabled before it, and each pair of them can
meet at it. -/

namespace Sys2Proof.Machine

open Sys2Proof

/-- The most an edge can transfer (R67). -/
theorem edgeMoves_sublist (i : PortIn) (ps : PortState) :
    (edgeMoves i ps).Sublist [.pop .enc, .pop .dec, .cmd .enc i.enc.cmdData, .cmd .dec i.dec.cmdData] := by
  have hstage (c : Bool) (m : Move) : (if c = true then [m] else []).Sublist [m] := by cases c <;> simp
  exact (((hstage _ _).append (hstage _ _)).append (hstage _ _)).append (hstage _ _)

/-- A command transfer needs a ready unit (R69). -/
theorem cmdReady_of_cmdTransfer {p : Port} {i : PortIn} {ps : PortState} (hw : ps.core.wasReset = true)
    (h : cmdTransfer p i ps = true) : cmdReady p ps.core = true := by
  obtain ⟨-, -, ⟨hready, -⟩, -⟩ := by simpa [cmdTransfer, cmdReadySignal, hw, unitReady] using h
  exact hready

/-- An output transfer needs a value (R70). -/
theorem outValid_of_outTransfer {p : Port} {i : PortIn} {ps : PortState} (hw : ps.core.wasReset = true)
    (h : outTransfer p i ps = true) : outValid p ps.core = true := by
  obtain ⟨-, -, hvalid, -⟩ := by simpa [outTransfer, outValidSignal, hw, headVisible] using h
  exact hvalid

/-- The transfers of an edge of the model can meet at it, each enabled before it (R67). -/
theorem edgeMoves_transfers (i : PortIn) {ps : PortState} (hw : ps.core.wasReset = true) :
    Transfers (edgeMoves i ps) ps.core := by
  constructor
  · refine List.Pairwise.sublist (edgeMoves_sublist i ps) ?_
    have hunits {m n : Move} (hm : m.port = some .enc) (hn : n.port = some .dec) : Simultaneous m n :=
      .units hm hn (by decide)
    simp only [List.pairwise_cons, List.forall_mem_cons, List.not_mem_nil, false_imp_iff, implies_true,
      List.Pairwise.nil, and_true]
    exact ⟨⟨hunits rfl rfl, .popCmd _ _, hunits rfl rfl⟩, ⟨(hunits rfl rfl).symm, .popCmd _ _⟩, hunits rfl rfl⟩
  · intro m hm
    simp only [edgeMoves, List.mem_append, List.mem_ite_nil_right, List.mem_singleton] at hm
    obtain ((⟨h, rfl⟩ | ⟨h, rfl⟩) | ⟨h, rfl⟩) | ⟨h, rfl⟩ := hm
    · exact outValid_of_outTransfer hw h
    · exact outValid_of_outTransfer hw h
    · exact cmdReady_of_cmdTransfer hw h
    · exact cmdReady_of_cmdTransfer hw h

/-- Settles O51: the edge performs its transfers in one order, and every other order gives the same. -/
theorem edgeIsItsTransactions : Obligations.EdgeIsItsTransactions := by
  intro i ps qs hw hr h ms hperm
  obtain ⟨-, hlist, -⟩ := edge_cases hw hr h
  have htransfers := edgeMoves_transfers i hw
  exact htransfers.runMoves_perm hperm.symm (htransfers.runMoves_of_performList hlist)

end Sys2Proof.Machine
end

section
/-! SUPPORT. When a call of a run is complete (70_reset_and_hazards.md R193): what has been popped is a beginning of the unit's
outputs, so each call end shows whether it reaches the values of its call. -/

namespace Sys2Proof.Machine

open Sys2Proof

/-- A run without reset only appends to a unit's outputs. -/
theorem runMoves_outputs_prefix {ms : List Move} {s t : State} (p : Port) (h : runMoves ms s = some t)
    (hr : Move.reset ∉ ms) : s.outputs p <+: t.outputs p := by
  induction ms generalizing s with
  | nil => cases h; exact List.prefix_rfl
  | cons m ms ih =>
    obtain ⟨he, u, hp, hu⟩ := runMoves_cons.1 h
    obtain ⟨hm, hms⟩ := not_or.1 (mt List.mem_cons.2 hr)
    obtain ⟨vs, hvs⟩ := outputsAreFirstInFirstOut s u m p (Ne.symm hm) he hp
    exact (show s.outputs p <+: u.outputs p from ⟨vs, hvs.symm⟩).trans (ih hu hms)

/-- The calls for `Bs` and the beginning of another put `Bs` in the unit's call ends, and their values first in its outputs. -/
theorem runMoves_calls_and_beginning {p : Port} {Bs : List (List Byte)} {C : List Byte} {ms : List Move} {s t : State}
    (h : runMoves ms s = some t) (hr : Move.reset ∉ ms) (hb : s.betweenCalls p)
    (hc : commandsOn p ms = Bs.flatMap (callOn p) ++ C.map (dataOn p)) :
    s.outputs p ++ Bs.flatMap (refCall p) <+: t.outputs p
      ∧ (t.record p).bounds = (s.record p).bounds ++ callEnds (s.outputs p).length (Bs.map (refCall p)) := by
  obtain ⟨calls, beginning, rfl, hcalls, hbeginning⟩ := commandsOn_eq_append hc
  obtain ⟨hrCalls, hrBeginning⟩ := not_or.1 (mt List.mem_append.2 hr)
  obtain ⟨u, hu, ht⟩ := runMoves_append.1 h
  obtain ⟨hout, hbounds⟩ := runMoves_calls hu hrCalls hb hcalls
  rw [List.flatMap_def, ← hout, ← hbounds]
  exact ⟨runMoves_outputs_prefix p ht hrBeginning,
    runMoves_bounds_of_no_end ht hrBeginning (hbeginning ▸ endOn_not_mem_data p C)⟩

/-- An ended call is complete when it appended nothing or its values have been popped; its values are then what was popped
between the call end before it and its own. -/
theorem completeFrom_callEnds_cons {popped before vs : List Byte} (vss : List (List Byte))
    (h : popped <+: before ++ vs ∨ before ++ vs <+: popped) :
    completeFrom popped before.length (callEnds before.length (vs :: vss)) =
      if vs = [] ∨ (before ++ vs).length ≤ popped.length then
        vs :: completeFrom popped (before ++ vs).length (callEnds (before ++ vs).length vss)
      else completeFrom popped (before ++ vs).length (callEnds (before ++ vs).length vss) := by
  have hcomplete : Boundary.complete popped.length before.length ⟨.ended, (before ++ vs).length⟩ = true
      ↔ vs = [] ∨ (before ++ vs).length ≤ popped.length := by
    simp [Boundary.complete, or_comm]
  rw [callEnds, ← List.length_append, completeFrom]
  simp only [hcomplete]
  split
  case isFalse => rfl
  case isTrue hdone =>
    congr 1
    obtain rfl | hle := hdone
    · simp
    · have hpopped : before ++ vs <+: popped := h.elim (fun hp => (hp.eq_of_length_le hle) ▸ List.prefix_rfl) id
      obtain ⟨more, rfl⟩ := hpopped
      rw [List.take_left, List.drop_left]

/-- The call with number `Bk.2` among the calls for `Bs`, and input `Bk.1`, has delivered its values when `n` values have been
popped: it has none, or its last one is among them. -/
def delivered (p : Port) (Bs : List (List Byte)) (n : Nat) (Bk : List Byte × Nat) : Bool :=
  decide (refCall p Bk.1 = [] ∨ ((Bs.take (Bk.2 + 1)).flatMap (refCall p)).length ≤ n)

/-- Of ended calls whose values stand first in the stream that has been popped from, the complete ones are those that have
delivered their values. -/
theorem completeFrom_callEnds_eq_delivered {p : Port} {popped stream : List Byte} {before after : List (List Byte)}
    (hpopped : popped <+: stream) (hvalues : (before ++ after).flatMap (refCall p) <+: stream) :
    completeFrom popped (before.flatMap (refCall p)).length
        (callEnds (before.flatMap (refCall p)).length (after.map (refCall p))) =
      ((after.zipIdx before.length).filter (delivered p (before ++ after) popped.length)).map
        fun Bk => refCall p Bk.1 := by
  induction after generalizing before with
  | nil => rfl
  | cons B after ih =>
    have hcalls : before ++ B :: after = (before ++ [B]) ++ after := by simp
    have hnext : (before ++ [B]).flatMap (refCall p) = before.flatMap (refCall p) ++ refCall p B := by simp
    have hB : delivered p (before ++ B :: after) popped.length (B, before.length) = true
        ↔ refCall p B = [] ∨ (before.flatMap (refCall p) ++ refCall p B).length ≤ popped.length := by
      have htake : (before ++ B :: after).take (before.length + 1) = before ++ [B] := by
        rw [hcalls]; exact List.take_left' (by simp)
      rw [delivered, decide_eq_true_iff, htake, hnext]
    rw [hcalls] at hvalues
    have hvaluesB : before.flatMap (refCall p) ++ refCall p B <+: stream := by
      rw [← hnext]
      exact (List.IsPrefix.flatMap (List.prefix_append _ _) _).trans hvalues
    have hrest := ih hvalues
    rw [hnext, List.length_append (bs := [B]), List.length_singleton, ← hcalls] at hrest
    rw [List.map_cons, completeFrom_callEnds_cons _ (List.prefix_or_prefix_of_prefix hpopped hvaluesB), hrest,
      List.zipIdx_cons, List.filter_cons]
    simp only [hB]
    split <;> rfl

/-- After the calls for `Bs` and the beginning of another, from a unit between calls with nothing output or recorded, the
complete calls are those for `Bs` that have delivered their values. -/
theorem completeCalls_eq_delivered {p : Port} {Bs : List (List Byte)} {C : List Byte} {ms : List Move} {s t : State}
    (h : runMoves ms s = some t) (hr : Move.reset ∉ ms) (hb : s.betweenCalls p) (hout : s.outputs p = [])
    (hbounds : (s.record p).bounds = []) (hc : commandsOn p ms = Bs.flatMap (callOn p) ++ C.map (dataOn p)) :
    (t.record p).completeCalls =
      (Bs.zipIdx.filter (delivered p Bs (t.record p).popped.length)).map fun Bk => refCall p Bk.1 := by
  obtain ⟨hvalues, hends⟩ := runMoves_calls_and_beginning h hr hb hc
  rw [hout, List.nil_append] at hvalues
  rw [hbounds, hout, List.nil_append] at hends
  rw [Record.completeCalls, hends]
  exact completeFrom_callEnds_eq_delivered (before := []) (List.prefix_append _ _) hvalues

/-- Settles O58: the call ends of the run are those of `Bs`, and what has been popped is a beginning of the outputs. -/
theorem encoderCallsCompleteWhenDelivered : Obligations.EncoderCallsCompleteWhenDelivered := by
  intro s t ms Bs C h hr hb hq hpopped hbounds hc
  exact completeCalls_eq_delivered (p := .enc) h hr hb (by simp [State.outputs, hpopped, hq]) hbounds hc

/-- Settles O59: the same for the decoder, where `DECODE` of a call can be empty although the call is not. -/
theorem decoderCallsCompleteWhenDelivered : Obligations.DecoderCallsCompleteWhenDelivered := by
  intro s t ms Ts C h hr hb hq hpopped hbounds hc
  exact completeCalls_eq_delivered (p := .dec) h hr hb (by simp [State.outputs, hpopped, hq]) hbounds hc

end Sys2Proof.Machine
end

section
/-! SUPPORT. What a missing `END` does to two encoder calls (70_reset_and_hazards.md R185): bytes in threes leave no bits for the
next window, and any other number puts padding where the merged call has symbols. -/

namespace Sys2Proof.Machine

open Sys2Proof

/-- `ENCODE` of bytes in threes, followed by others, is `ENCODE` of each: no window holds bits of both. -/
theorem refEncode_append {B : List Byte} (hB : B.length % 3 = 0) (C : List Byte) :
    refEncode (B ++ C) = refEncode B ++ refEncode C := by
  have hdB : 6 ∣ (byteStream B).length := by rw [byteStream_length]; omega
  obtain ⟨F, X, hC, hX⟩ := exists_sextetStream_append (byteStream C)
  have hdC : 6 ∣ (sextetStream F).length := by simp
  have hBC : byteStream (B ++ C) = (byteStream B ++ sextetStream F) ++ X := by
    rw [byteStream_append, hC, List.append_assoc]
  have hdBC : 6 ∣ (byteStream B ++ sextetStream F).length := by
    rw [List.length_append]; exact Nat.dvd_add hdB hdC
  rw [refEncode_of_stream_eq hBC hdBC hX, refEncode_of_stream_eq hC hdC hX,
    refEncode_of_stream_eq (List.append_nil _).symm hdB (by decide), encWindows_append hdB]
  simp [encTail]

/-- In `ENCODE` only padding stands after padding (R102). -/
theorem refEncode_only_padCode_after_padCode (B : List Byte) :
    (refEncode B).Pairwise fun v w => v = Config.padCode → w = Config.padCode := by
  obtain ⟨vs, hsymbols, heq, -⟩ := refEncode_eq_symbols_append_padding B
  have hvs : ∀ v ∈ vs, v ≠ Config.padCode := fun v hv => by
    obtain ⟨i, rfl⟩ := hsymbols v hv
    exact symbolOf_ne_padCode i
  rw [heq, List.pairwise_append]
  exact ⟨List.pairwise_of_forall_mem_list fun v hv _ _ hpad => absurd hpad (hvs v hv),
    List.pairwise_replicate.2 (.inr id), fun v hv _ _ hpad => absurd hpad (hvs v hv)⟩

/-- `ENCODE` of bytes that do not come in threes ends in padding (R102). -/
theorem padCode_mem_refEncode {B : List Byte} (hB : B.length % 3 ≠ 0) : Config.padCode ∈ refEncode B := by
  obtain ⟨vs, -, heq, -⟩ := refEncode_eq_symbols_append_padding B
  rw [heq]
  exact List.mem_append_right _ (List.mem_replicate.2 ⟨by omega, rfl⟩)

/-- `ENCODE` of at least one byte holds a symbol. -/
theorem exists_symbolOf_mem_refEncode {B : List Byte} (hB : B ≠ []) : ∃ i, symbolOf i ∈ refEncode B := by
  obtain ⟨vs, hsymbols, heq, hlen⟩ := refEncode_eq_symbols_append_padding B
  have hpos : 0 < B.length := List.length_pos_iff.2 hB
  obtain ⟨v, hv⟩ := List.exists_mem_of_length_pos (l := vs) (by rw [hlen, ceilDiv]; omega)
  obtain ⟨i, rfl⟩ := hsymbols v hv
  exact ⟨i, heq ▸ List.mem_append_left _ hv⟩

/-- Settles O23: the padding that ends the first call stands before a symbol of the second, which no one call allows. -/
theorem missingEndMergesCalls : Obligations.MissingEndMergesCalls := by
  intro B C
  refine ⟨fun hB => refEncode_append hB C, fun hB hC heq => ?_⟩
  obtain ⟨i, hi⟩ := exists_symbolOf_mem_refEncode hC
  have hmerged := refEncode_only_padCode_after_padCode (B ++ C)
  rw [heq, List.pairwise_append] at hmerged
  obtain ⟨-, -, hcross⟩ := hmerged
  exact symbolOf_ne_padCode i (hcross _ (padCode_mem_refEncode hB) _ hi rfl)

end Sys2Proof.Machine
end

section
/-! SUPPORT. What a reset does to the block and to the calls the host has observed (70_reset_and_hazards.md R181, R187, R193;
log entry 7). -/

namespace Sys2Proof.Machine

open Sys2Proof

/-- After a reset exactly the complete calls count as ended. -/
theorem Boundary.cutAt_how_eq_ended_iff (n start : Nat) (b : Boundary) :
    (b.cutAt n start).how = .ended ↔ b.complete n start = true := by
  rw [Boundary.cutAt]
  split <;> simp [*]

/-- A reset leaves every call as complete or incomplete as it was, wherever its values are then said to start. -/
theorem Boundary.complete_cutAt (n start start' : Nat) (b : Boundary) :
    (b.cutAt n start).complete n start' = b.complete n start := by
  rw [Bool.eq_iff_iff, Boundary.complete, decide_eq_true_iff, Boundary.cutAt_how_eq_ended_iff, Boundary.cutAt_pos]
  exact and_iff_left (.inl (min_le_right _ _))

/-- Values popped between two call ends are the same after the call ends are moved back to where the popped values end. -/
theorem take_drop_min {α : Type} (l : List α) (i j : Nat) :
    (l.take (min j l.length)).drop (min i l.length) = (l.take j).drop i := by
  obtain hi | hi := le_total i l.length
  · rw [min_eq_left hi, ← List.take_eq_take_min]
  · rw [min_eq_right hi, List.drop_eq_nil_of_le (by simp), List.drop_eq_nil_of_le (by simp [hi])]

/-- The call ends that a reset has moved show the same complete calls, with the same values. -/
theorem completeFrom_cutBounds (popped : List Byte) (start : Nat) (bs : List Boundary) :
    completeFrom popped (min start popped.length) (cutBounds popped.length start bs) = completeFrom popped start bs := by
  induction bs generalizing start with
  | nil => rfl
  | cons b bs ih =>
    rw [cutBounds_cons, completeFrom, completeFrom, Boundary.complete_cutAt, Boundary.cutAt_pos, take_drop_min, ih]

/-- An abandoned call is not complete. -/
theorem completeFrom_append_abandoned (popped : List Byte) (start pos : Nat) (bs : List Boundary) :
    completeFrom popped start (bs ++ [⟨.abandoned, pos⟩]) = completeFrom popped start bs := by
  induction bs generalizing start with
  | nil => simp [completeFrom, Boundary.complete]
  | cons b bs ih => rw [List.cons_append, completeFrom, completeFrom, ih]

theorem Record.completeCalls_abandon (r : Record) : r.abandon.completeCalls = r.completeCalls := by
  rw [Record.completeCalls, Record.completeCalls, Record.abandon_bounds, Record.abandon_popped, completeFrom_append_abandoned]
  simpa only [Nat.zero_min] using completeFrom_cutBounds r.popped 0 r.bounds

theorem record_resetBlock (p : Port) (s : State) : (resetBlock s).record p = (s.record p).abandon := by
  cases p <;> rfl

/-- Settles O60: a reset abandons each unit's record, which keeps its complete calls. -/
theorem resetKeepsCompleteCalls : Obligations.ResetKeepsCompleteCalls := by
  intro s t p _ h
  cases h
  rw [record_resetBlock, Record.completeCalls_abandon]

/-- Settles O42: a reset answers `resetBlock`, whatever the state was. -/
theorem resetSetsEveryField : Obligations.ResetSetsEveryField := by
  intro s
  exact ⟨resetBlock s, rfl, rfl, rfl, rfl, rfl, rfl, rfl, fun p => by simp [record_resetBlock]⟩

end Sys2Proof.Machine
end

section
/-! SUPPORT. Transactions that are not enabled (70_reset_and_hazards.md R189; log entry 4): they change nothing and wait. -/

namespace Sys2Proof.Machine

open Sys2Proof

/-- A pop of an empty queue changes nothing. -/
theorem popUnit_of_empty {p : Port} {s : State} (hq : outq p s = []) : popUnit p s = s := by
  cases p with
  | enc => exact popUnit_enc_nil hq
  | dec => exact popUnit_dec_nil hq

/-- After the first reset a transaction that is not enabled changes nothing. -/
theorem perform_disabled {m : Move} {s : State} (hw : s.wasReset = true) (he : enabled m s = false) :
    perform m s = .next s := by
  cases m with
  | cmd p w => exact exec_full hw ((decode_port p w).symm ▸ he)
  | pop p =>
    have hq : outq p s = [] := by
      by_contra hne
      exact absurd ((outValid_iff p s).2 ⟨hw, hne⟩) (ne_true_of_eq_false he)
    exact execPop_eq_next.2 ⟨hw, (popUnit_of_empty hq).symm⟩
  | readIdle p => exact absurd hw (ne_true_of_eq_false he)
  | reset => exact absurd rfl (ne_true_of_eq_false he)

/-- A machine whose next step changes nothing stays as it is. -/
theorem core_run_of_step_self {s : State} (h : step s = .next s) (n : Nat) : core.run n s = .next s := by
  induction n with
  | zero => rfl
  | succ n ih => rw [core_run_succ h, ih]

/-- A transaction that is not enabled waits at the head of the script. -/
theorem step_disabled {m : Move} {rest : List Move} {s : State} (hscript : s.host.script = m :: rest)
    (hw : s.wasReset = true) (he : enabled m s = false) : step s = .next s := by
  simp [step, hscript, performNext, waits, hw, he]

/-- Settles O37: the transaction changes nothing when tried and nothing while it waits, one step after another. -/
theorem disabledTransactionStaysStuck : Obligations.DisabledTransactionStaysStuck := by
  intro s m rest n hscript hw he
  exact ⟨perform_disabled hw he, core_run_of_step_self (step_disabled hscript hw he) n⟩

end Sys2Proof.Machine
end

section
/-! SUPPORT. In a legal state after the first reset every transaction answers a next state (60_exceptions.md R160), so a list of
transactions can be performed to its end. -/

namespace Sys2Proof.Machine

open Sys2Proof

/-- After reset a command of a legal machine answers a next state, with room (R107, R137) or without (log entry 4). -/
theorem exec_next_of_legal_after_reset (i : Instr) {s : State} (hs : s.legal) (hw : s.wasReset = true) :
    ∃ t, exec i s = .next t := by
  cases hr : cmdReady i.port s with
  | true => exact exec_next_of_legal hs hr
  | false => exact ⟨s, exec_full hw hr⟩

/-- After reset a transaction of a legal machine answers a next state. -/
theorem perform_next_of_legal (m : Move) {s : State} (hs : s.legal) (hw : s.wasReset = true) :
    ∃ t, perform m s = .next t := by
  cases m with
  | cmd p w => exact exec_next_of_legal_after_reset (decode p w) hs hw
  | pop p => exact ⟨_, execPop_eq_next.2 ⟨hw, rfl⟩⟩
  | readIdle p => exact ⟨_, execReadIdle_eq_next.2 ⟨hw, rfl⟩⟩
  | reset => exact ⟨resetBlock s, rfl⟩

/-- After reset a list of transactions of a legal machine is performed to its end. -/
theorem performList_next_of_legal (ms : List Move) {s : State} (hs : s.legal) (hw : s.wasReset = true) :
    ∃ t, performList ms s = .next t := by
  induction ms generalizing s with
  | nil => exact ⟨s, rfl⟩
  | cons m ms ih =>
    obtain ⟨u, hu⟩ := perform_next_of_legal m hs hw
    obtain ⟨t, ht⟩ := ih (perform_legal_of_inv hs.inv hu) (perform_wasReset_true hu hw)
    exact ⟨t, performList_cons.2 ⟨u, hu, ht⟩⟩

/-- Settles O48: a step leaves the state as it is or performs a transaction, which a legal state answers. -/
theorem nothingFaultsAfterReset : Obligations.NothingFaultsAfterReset := by
  intro s ⟨_, _, hlegal⟩ hw
  refine ⟨fun i => exec_next_of_legal_after_reset i (hlegal hw) hw, ?_⟩
  obtain ⟨-, hn⟩ | ⟨m, rest, -, ⟨-, -, hn⟩ | ⟨-, hp⟩⟩ := step_cases s
  · exact ⟨s, hn⟩
  · exact ⟨s, hn⟩
  · rw [safeStep, hp]
    exact perform_next_of_legal m (s := s.setScript rest) (hlegal hw) hw

end Sys2Proof.Machine
end

section
/-! SUPPORT. The host's duty and reset at a clock edge (30_encoding.md R68; 60_exceptions.md R164, R171; log entries 14, 19): a
broken duty is the only thing refused after the first reset, and a reset asks no duty and makes no transfer. -/

namespace Sys2Proof.Machine

open Sys2Proof

/-- The duty that an edge asks, port by port (R68). -/
theorem dutyKept_both_iff (i : PortIn) (ps : PortState) :
    (dutyKept i.enc ps.enc && dutyKept i.dec ps.dec) = true ↔
      ∀ p w, (ps.timing p).offer = some w → (i.unit p).cmdValid = true ∧ (i.unit p).cmdData = w := by
  rw [Bool.and_eq_true, dutyKept_iff, dutyKept_iff]
  refine ⟨fun ⟨henc, hdec⟩ p => ?_, fun h => ⟨h .enc, h .dec⟩⟩
  cases p with
  | enc => exact henc
  | dec => exact hdec

/-- An edge without reset, after the first one, makes its transfers if the host keeps its duty and is refused otherwise. -/
theorem edge_without_reset {i : PortIn} {ps : PortState} (hw : ps.core.wasReset = true) (hr : i.rst = false) :
    edge i ps =
      if dutyKept i.enc ps.enc && dutyKept i.dec ps.dec then transferEdge i ps else .refused .hostProtocol := by
  simp [edge, hr, hw]

/-- The transfers of an edge answer a next state when the transactions they are do. -/
theorem transferEdge_next_of_performList {i : PortIn} {ps : PortState} {t : State}
    (h : performList (edgeMoves i ps) ps.core = .next t) : ∃ qs, transferEdge i ps = .next qs := by
  rw [transferEdge, h]
  exact ⟨_, rfl⟩

/-- Settles O53: the edge asks the duty of both ports, and a legal state answers all the transfers. -/
theorem onlyBrokenDutyIsRefused : Obligations.OnlyBrokenDutyIsRefused := by
  intro i ps hw hr
  rw [edge_without_reset hw hr]
  constructor
  · rintro ⟨p, w, hoffer, hbroken⟩
    exact if_neg fun hkept => hbroken ((dutyKept_both_iff i ps).1 hkept p w hoffer)
  · rintro ⟨-, -, hlegal⟩ hkept
    rw [if_pos ((dutyKept_both_iff i ps).2 hkept)]
    obtain ⟨t, ht⟩ := performList_next_of_legal (edgeMoves i ps) (hlegal hw) hw
    exact transferEdge_next_of_performList ht

theorem cmdReadySignal_of_rst {i : PortIn} (p : Port) (ps : PortState) (hr : i.rst = true) :
    cmdReadySignal p i ps = false := if_pos hr

theorem outValidSignal_of_rst {i : PortIn} (p : Port) (ps : PortState) (hr : i.rst = true) :
    outValidSignal p i ps = false := if_pos hr

/-- Settles O52: a reset takes ready and valid away, and with them every transfer, and leaves empty queues. -/
theorem resetWinsOverTransfers : Obligations.ResetWinsOverTransfers := by
  intro i ps hr
  refine ⟨fun p => ?_, resetEdge ps, edge_reset ps hr, rfl, rfl, rfl, fun p j hj => ?_⟩
  · have hready := cmdReadySignal_of_rst p ps hr
    have hvalid := outValidSignal_of_rst p ps hr
    exact ⟨hready, hvalid, by simp [cmdTransfer, hready], by simp [outTransfer, hvalid]⟩
  · rw [unitOut_idle hj (resetBlock_wasReset ps.core)]
    exact (idle_iff p _).2 (outq_resetBlock p ps.core)

end Sys2Proof.Machine
end
